-- ==== Sys2Proof/Word.lean ====
section
/-! DEFINITION. Word.lean: the fixed-width types of the hardware (spec/00_scope.md R6, R8) and nothing else. -/

namespace Sys2Proof

/-- A 32-bit word: a bus word, a command word, a PB word, one word of an operand (R6, W = 32). -/
abbrev Word := BitVec 32

/-- A byte lane of a bus word (20_memory.md R57). -/
abbrev Byte := BitVec 8

/-- The content of one operand register: a residue modulo 2^2048, unsigned (R8, R14 "FixedInt"). -/
abbrev FixedInt := BitVec 2048

/-- The number of an operand register x[0] .. x[7] (R20). -/
abbrev RegIdx := Fin 8

/-- The unsigned immediate of a command word (30_encoding.md R71). -/
abbrev Imm12 := BitVec 12

end Sys2Proof
end

