-- ==== Sys2Proof/Syntax.lean ====
section
/-! DEFINITION. Syntax.lean: the commands of MPA2048, one constructor per row of spec/opcode_table.json
(spec/30_encoding.md R72), operands in the order of the assembler syntax (R76). -/

namespace Sys2Proof

/-- One command. A register operand is a register number, `imm` the unsigned imm12 (R71). -/
inductive Instr where
  /-- R101 `CLR rd` -/
  | clr (rd : RegIdx)
  /-- R102 `MOV rd, rs1` -/
  | mov (rd rs1 : RegIdx)
  /-- R103 `LDWL rd, #len` -/
  | ldwl (rd : RegIdx) (len : Imm12)
  /-- R104 `ADD rd, rs1, rs2` -/
  | add (rd rs1 rs2 : RegIdx)
  /-- R105 `SUB rd, rs1, rs2` -/
  | sub (rd rs1 rs2 : RegIdx)
  /-- R106 `CMP rs1, rs2` -/
  | cmp (rs1 rs2 : RegIdx)
  /-- R120 `SHLW rd, rs1, #k` -/
  | shlw (rd rs1 : RegIdx) (k : Imm12)
  /-- R121 `SHL rd, rs1, #n` -/
  | shl (rd rs1 : RegIdx) (n : Imm12)
  /-- R122 `SHR rd, rs1, #n` -/
  | shr (rd rs1 : RegIdx) (n : Imm12)
  /-- R123 `BITLEN rs1` -/
  | bitlen (rs1 : RegIdx)
  /-- R124 `GETBIT rs1, #i` -/
  | getbit (rs1 : RegIdx) (i : Imm12)
  /-- R130 `MULW rd, rs1, rs2` -/
  | mulw (rd rs1 rs2 : RegIdx)
  /-- R131 `MUL rd, rs1, rs2` -/
  | mul (rd rs1 rs2 : RegIdx)
  /-- R140 `DIVMOD rd, r4, rs1, rs2`: quotient to rd, remainder to r4 -/
  | divmod (rd r4 rs1 rs2 : RegIdx)
  /-- R150 `POW rd, rs1, rs2` -/
  | pow (rd rs1 rs2 : RegIdx)
  /-- R152 `GCD rd, rs1, rs2` -/
  | gcd (rd rs1 rs2 : RegIdx)
  /-- R153 `LCM rd, rs1, rs2` -/
  | lcm (rd rs1 rs2 : RegIdx)
  /-- R155 `BMU rd, rs1` -/
  | bmu (rd rs1 : RegIdx)
  /-- R157 `BRED rd, rs1, rs2, rs3`: rs1 = x, rs2 = n, rs3 = μ -/
  | bred (rd rs1 rs2 rs3 : RegIdx)
  /-- R158 `POWMOD rd, rs1, rs2, rs3, r4`: rs1 = A, rs2 = B, rs3 = n, r4 = μ -/
  | powmod (rd rs1 rs2 rs3 r4 : RegIdx)
deriving DecidableEq, Repr

end Sys2Proof
end

