-- ==== Sys2Proof/WellFormed.lean ====
section
/-! DEFINITION. WellFormed.lean: which commands have an encoding (spec/30_encoding.md R74). Register numbers and the
immediate are in range by their types; the one further condition is LDWL's length. -/

namespace Sys2Proof

/-- R74: an LDWL length fits the pair buffer; every other command is well formed as it stands. -/
def Instr.wellFormed : Instr → Bool
  | .clr _ => true
  | .mov _ _ => true
  | .ldwl _ len => decide (len.toNat ≤ 256)
  | .add _ _ _ => true
  | .sub _ _ _ => true
  | .cmp _ _ => true
  | .shlw _ _ _ => true
  | .shl _ _ _ => true
  | .shr _ _ _ => true
  | .bitlen _ => true
  | .getbit _ _ => true
  | .mulw _ _ _ => true
  | .mul _ _ _ => true
  | .divmod _ _ _ _ => true
  | .pow _ _ _ => true
  | .gcd _ _ _ => true
  | .lcm _ _ _ => true
  | .bmu _ _ => true
  | .bred _ _ _ _ => true
  | .powmod _ _ _ _ _ => true

end Sys2Proof
end

