-- ==== Sys2Proof/Decode.lean ====
section
/-! DEFINITION. Decode.lean: from a command word to a command and back (spec/30_encoding.md R70 to R75), the opcode
map of R72 as data, and the legality check of R74. The decoder reads fields; the legality check reads masks: that the
two agree is a statement, not an assumption. -/

namespace Sys2Proof

/-- R70: the seven fields of the one command format. -/
structure Fields where
  op  : BitVec 5
  rd  : BitVec 3
  rs1 : BitVec 3
  rs2 : BitVec 3
  rs3 : BitVec 3
  r4  : BitVec 3
  imm : BitVec 12
deriving DecidableEq, Repr

/-- R70: the fields of a word, by their bit positions. -/
def Fields.ofWord (v : Word) : Fields where
  op  := v.extractLsb' 27 5
  rd  := v.extractLsb' 24 3
  rs1 := v.extractLsb' 21 3
  rs2 := v.extractLsb' 18 3
  rs3 := v.extractLsb' 15 3
  r4  := v.extractLsb' 12 3
  imm := v.extractLsb' 0 12

/-- R70: the word of given fields, `ooooo ddd aaa bbb ccc eee iiiiiiiiiiii`. -/
def Fields.toWord (f : Fields) : Word :=
  (f.op ++ f.rd ++ f.rs1 ++ f.rs2 ++ f.rs3 ++ f.r4 ++ f.imm).setWidth 32

/-- R72, column "fields used": which fields a command uses. -/
structure FieldUse where
  rd  : Bool := false
  rs1 : Bool := false
  rs2 : Bool := false
  rs3 : Bool := false
  r4  : Bool := false
  imm : Bool := false
deriving DecidableEq, Repr

/-- R73: every field the command does not use holds 0. -/
def Fields.unusedZero (f : Fields) (u : FieldUse) : Bool :=
  (u.rd || f.rd == 0) && (u.rs1 || f.rs1 == 0) && (u.rs2 || f.rs2 == 0) &&
    (u.rs3 || f.rs3 == 0) && (u.r4 || f.r4 == 0) && (u.imm || f.imm == 0)

/-- Why a word is no command (R74). -/
inductive DecodeReject where
  /-- op is 0x00 or 0x15 .. 0x1F -/
  | reservedOpcode
  /-- a field the command does not use is not 0 (R73) -/
  | unusedFieldNotZero
  /-- LDWL with imm12 above 256 -/
  | listTooLong
deriving DecidableEq, Repr

/-- R71: a register field is an unsigned 3-bit index. -/
def regOf (b : BitVec 3) : RegIdx := b.toFin

/-- The register field that names a register. -/
def bitsOf (r : RegIdx) : BitVec 3 := BitVec.ofFin r

/-- A command of the map with its unused fields checked (R73). -/
def Fields.accept (f : Fields) (u : FieldUse) (i : Instr) : Except DecodeReject Instr :=
  if f.unusedZero u then .ok i else .error .unusedFieldNotZero

/-- R72: the command whose opcode and operands stand in the fields. -/
def decodeFields (f : Fields) : Except DecodeReject Instr :=
  let rd := regOf f.rd
  let rs1 := regOf f.rs1
  let rs2 := regOf f.rs2
  let rs3 := regOf f.rs3
  let r4 := regOf f.r4
  match f.op.toNat with
  | 0x01 => f.accept { rd := true } (.clr rd)
  | 0x02 => f.accept { rd := true, rs1 := true } (.mov rd rs1)
  | 0x03 =>
    if f.unusedZero { rd := true, imm := true } then
      if f.imm.toNat ≤ 256 then .ok (.ldwl rd f.imm) else .error .listTooLong
    else .error .unusedFieldNotZero
  | 0x04 => f.accept { rd := true, rs1 := true, rs2 := true } (.add rd rs1 rs2)
  | 0x05 => f.accept { rd := true, rs1 := true, rs2 := true } (.sub rd rs1 rs2)
  | 0x06 => f.accept { rs1 := true, rs2 := true } (.cmp rs1 rs2)
  | 0x07 => f.accept { rd := true, rs1 := true, imm := true } (.shlw rd rs1 f.imm)
  | 0x08 => f.accept { rd := true, rs1 := true, imm := true } (.shl rd rs1 f.imm)
  | 0x09 => f.accept { rd := true, rs1 := true, imm := true } (.shr rd rs1 f.imm)
  | 0x0A => f.accept { rs1 := true } (.bitlen rs1)
  | 0x0B => f.accept { rs1 := true, imm := true } (.getbit rs1 f.imm)
  | 0x0C => f.accept { rd := true, rs1 := true, rs2 := true } (.mulw rd rs1 rs2)
  | 0x0D => f.accept { rd := true, rs1 := true, rs2 := true } (.mul rd rs1 rs2)
  | 0x0E => f.accept { rd := true, rs1 := true, rs2 := true, r4 := true } (.divmod rd r4 rs1 rs2)
  | 0x0F => f.accept { rd := true, rs1 := true, rs2 := true } (.pow rd rs1 rs2)
  | 0x10 => f.accept { rd := true, rs1 := true, rs2 := true } (.gcd rd rs1 rs2)
  | 0x11 => f.accept { rd := true, rs1 := true, rs2 := true } (.lcm rd rs1 rs2)
  | 0x12 => f.accept { rd := true, rs1 := true } (.bmu rd rs1)
  | 0x13 => f.accept { rd := true, rs1 := true, rs2 := true, rs3 := true } (.bred rd rs1 rs2 rs3)
  | 0x14 =>
    f.accept { rd := true, rs1 := true, rs2 := true, rs3 := true, r4 := true } (.powmod rd rs1 rs2 rs3 r4)
  | _ => .error .reservedOpcode

/-- The command a word names, or why it names none: total on every word (R74, R75). -/
def decode (v : Word) : Except DecodeReject Instr := decodeFields (Fields.ofWord v)

/-- The command a word names, if it names one. -/
def decode? (v : Word) : Option Instr :=
  match decode v with
  | .ok i => some i
  | .error _ => none

/-- R72, R76: the fields of a command; every field it does not use is 0. -/
def encodeFields (i : Instr) : Fields :=
  let z : BitVec 3 := 0
  match i with
  | .clr rd => ⟨0x01, bitsOf rd, z, z, z, z, 0⟩
  | .mov rd rs1 => ⟨0x02, bitsOf rd, bitsOf rs1, z, z, z, 0⟩
  | .ldwl rd len => ⟨0x03, bitsOf rd, z, z, z, z, len⟩
  | .add rd rs1 rs2 => ⟨0x04, bitsOf rd, bitsOf rs1, bitsOf rs2, z, z, 0⟩
  | .sub rd rs1 rs2 => ⟨0x05, bitsOf rd, bitsOf rs1, bitsOf rs2, z, z, 0⟩
  | .cmp rs1 rs2 => ⟨0x06, z, bitsOf rs1, bitsOf rs2, z, z, 0⟩
  | .shlw rd rs1 k => ⟨0x07, bitsOf rd, bitsOf rs1, z, z, z, k⟩
  | .shl rd rs1 n => ⟨0x08, bitsOf rd, bitsOf rs1, z, z, z, n⟩
  | .shr rd rs1 n => ⟨0x09, bitsOf rd, bitsOf rs1, z, z, z, n⟩
  | .bitlen rs1 => ⟨0x0A, z, bitsOf rs1, z, z, z, 0⟩
  | .getbit rs1 k => ⟨0x0B, z, bitsOf rs1, z, z, z, k⟩
  | .mulw rd rs1 rs2 => ⟨0x0C, bitsOf rd, bitsOf rs1, bitsOf rs2, z, z, 0⟩
  | .mul rd rs1 rs2 => ⟨0x0D, bitsOf rd, bitsOf rs1, bitsOf rs2, z, z, 0⟩
  | .divmod rd r4 rs1 rs2 => ⟨0x0E, bitsOf rd, bitsOf rs1, bitsOf rs2, z, bitsOf r4, 0⟩
  | .pow rd rs1 rs2 => ⟨0x0F, bitsOf rd, bitsOf rs1, bitsOf rs2, z, z, 0⟩
  | .gcd rd rs1 rs2 => ⟨0x10, bitsOf rd, bitsOf rs1, bitsOf rs2, z, z, 0⟩
  | .lcm rd rs1 rs2 => ⟨0x11, bitsOf rd, bitsOf rs1, bitsOf rs2, z, z, 0⟩
  | .bmu rd rs1 => ⟨0x12, bitsOf rd, bitsOf rs1, z, z, z, 0⟩
  | .bred rd rs1 rs2 rs3 => ⟨0x13, bitsOf rd, bitsOf rs1, bitsOf rs2, bitsOf rs3, z, 0⟩
  | .powmod rd rs1 rs2 rs3 r4 => ⟨0x14, bitsOf rd, bitsOf rs1, bitsOf rs2, bitsOf rs3, bitsOf r4, 0⟩

/-- The word of a command. -/
def encode (i : Instr) : Word := (encodeFields i).toWord

/-- One row of the opcode map (R72): opcode number, match and mask. -/
structure OpcodeRow where
  op    : Nat
  value : Word
  mask  : Word
deriving DecidableEq, Repr

/-- R72: the word matches the row. -/
def OpcodeRow.matches (r : OpcodeRow) (v : Word) : Bool := (v &&& r.mask) == r.value

/-- R72, opcodes 0x01 to 0x0A (layers 1 and 2). -/
def opcodeRowsLow : List OpcodeRow :=
  [⟨0x01, 0x08000000, 0xF8FFFFFF⟩, ⟨0x02, 0x10000000, 0xF81FFFFF⟩, ⟨0x03, 0x18000000, 0xF8FFF000⟩,
   ⟨0x04, 0x20000000, 0xF803FFFF⟩, ⟨0x05, 0x28000000, 0xF803FFFF⟩, ⟨0x06, 0x30000000, 0xFF03FFFF⟩,
   ⟨0x07, 0x38000000, 0xF81FF000⟩, ⟨0x08, 0x40000000, 0xF81FF000⟩, ⟨0x09, 0x48000000, 0xF81FF000⟩,
   ⟨0x0A, 0x50000000, 0xFF1FFFFF⟩]

/-- R72, opcodes 0x0B to 0x14. -/
def opcodeRowsHigh : List OpcodeRow :=
  [⟨0x0B, 0x58000000, 0xFF1FF000⟩, ⟨0x0C, 0x60000000, 0xF803FFFF⟩, ⟨0x0D, 0x68000000, 0xF803FFFF⟩,
   ⟨0x0E, 0x70000000, 0xF8038FFF⟩, ⟨0x0F, 0x78000000, 0xF803FFFF⟩, ⟨0x10, 0x80000000, 0xF803FFFF⟩,
   ⟨0x11, 0x88000000, 0xF803FFFF⟩, ⟨0x12, 0x90000000, 0xF81FFFFF⟩, ⟨0x13, 0x98000000, 0xF8007FFF⟩,
   ⟨0x14, 0xA0000000, 0xF8000FFF⟩]

/-- R72: the opcode map. -/
def opcodeRows : List OpcodeRow := opcodeRowsLow ++ opcodeRowsHigh

/-- R74: the legality check applied at issue, by the masks of the opcode map. -/
def legal (v : Word) : Bool :=
  opcodeRows.any (fun r => r.op == (v.extractLsb' 27 5).toNat && r.matches v) &&
    ((v.extractLsb' 27 5).toNat != 0x03 || decide ((v.extractLsb' 0 12).toNat ≤ 256))

/-- The word of the host's numbering: the low `nbits` bits of `w`, bits above them 0 (log entry 19). -/
def tableWord (nbits w : Nat) : Word := BitVec.ofNat 32 (w % 2 ^ nbits)

/-- What the decoder reads from an instruction whose bits are `w` (spec/opcode_table.json's numbering: a command is
one 32-bit bus word, its bit 0 the table's bit 0). -/
def decodeTableWord (nbits w : Nat) : Option Instr := decode? (tableWord nbits w)

end Sys2Proof
end

