-- ==== Sys2Proof/Config.lean ====
section
/-! DEFINITION. Config.lean: the parameters of MPA2048 (spec/00_scope.md R6) and the read-only constants that
report them (spec/10_state.md R26, R27). BASE alone is left open by the spec: its page number is opaque. -/

namespace Sys2Proof

/-- R6: word width W. -/
def Config.wordBits : Nat := 32
/-- R6: words of a value, L. -/
def Config.words : Nat := 64
/-- R6: capacity CAP = W·L in bits. -/
def Config.capacity : Nat := 2048
/-- R6: operand registers, NREG (D2). -/
def Config.nreg : Nat := 8
/-- R6: words of the pair buffer, PB_WORDS (D21). -/
def Config.pbWords : Nat := 256
/-- R6: bits of the immediate, IMM_BITS (D3). -/
def Config.immBits : Nat := 12
/-- R6: bytes of the host window, WINDOW (D22). -/
def Config.window : Nat := 4096

/-- The 4 KiB page the platform places the block at: open, any value (R6, D22; log entry 12). -/
opaque Config.basePage : Nat

/-- R6: `BASE`, the host address of offset 0, a multiple of 4096. -/
def Config.base : Nat := Config.window * Config.basePage

/-- R26: what ID reads, "MPA1". -/
def Config.idWord : Word := 0x4D504131

/-- R27: what CFG reads, put together from the parameters it reports:
PB_WORDS [31:20], NREG [19:16], WORDS [15:8], WORD_BITS [7:0]. -/
def Config.cfgWord : Word :=
  (BitVec.ofNat 12 Config.pbWords ++ BitVec.ofNat 4 Config.nreg ++ BitVec.ofNat 8 Config.words ++
    BitVec.ofNat 8 Config.wordBits).setWidth 32

end Sys2Proof
end

