-- ==== Sys2Proof/Machine/State.lean ====
section
/-! DEFINITION. Machine/State.lean: every piece of state the spec gives MPA2048 (spec/10_state.md R20 to R36), the
inputs its agents take (00_scope.md R7), the reasons a step can stop, and the state after reset. -/

namespace Sys2Proof.Machine

/-- The width of one host access (20_memory.md R52: 32 bits, or a narrower one the block refuses). -/
inductive AccessWidth where
  | byte
  | half
  | word
deriving DecidableEq, Repr

/-- One event of the total order of R60: a host transaction, an engine turn, or reset (R7, R200). `addr` is the host
address of an access that reaches the block. -/
inductive Input where
  /-- a host read -/
  | read (width : AccessWidth) (addr : Nat)
  /-- a host write; a narrower access carries its data in `v` too, which the block ignores -/
  | write (width : AccessWidth) (addr : Nat) (v : Word)
  /-- the engine may take its step here (R32: enabled only while busy) -/
  | engine
  /-- the reset input -/
  | reset
deriving DecidableEq, Repr

/-- R29: the W1C bits of STATUS, bits 1 to 7. BUSY is not among them: it is the view of `State.busy`. -/
structure StatusFlags where
  /-- bit 1: a command has finished -/
  done : Bool
  /-- bit 2: DivByZero -/
  dz   : Bool
  /-- bit 3: Malformed -/
  malf : Bool
  /-- bit 4: BadIndex -/
  idx  : Bool
  /-- bit 5: Illegal -/
  ill  : Bool
  /-- bit 6: Overrun -/
  ovr  : Bool
  /-- bit 7: BadAccess -/
  acc  : Bool
deriving DecidableEq, Repr

/-- R31: the two bits of IE. -/
structure InterruptEnable where
  /-- bit 0 -/
  doneIe : Bool
  /-- bit 1 -/
  errIe  : Bool
deriving DecidableEq, Repr

/-- The machine: the block's own state (R36), then the two fields that are the model's. -/
structure State where
  /-- R20: the operand registers x[0] .. x[7] -/
  x        : Vector FixedInt 8
  /-- R24: the pair buffer PB[0] .. PB[255] -/
  pb       : Vector Word 256
  /-- R28, R32: the CMD read-back -/
  cmdLast  : Word
  /-- R29: STATUS[7:1] -/
  flags    : StatusFlags
  /-- R30: RESULT -/
  result   : Word
  /-- R31: IE -/
  ie       : InterruptEnable
  /-- R32: a command is pending; STATUS.BUSY -/
  busy     : Bool
  /-- R32: the pending command word, meaningful only while busy -/
  pending  : Word
  /-- the model's own: what the agents do next, oldest first (log entry 1) -/
  inputs   : List Input
  /-- the model's own: the word the last host read returned (log entry 5) -/
  readData : Word
deriving DecidableEq, Repr

/-- Why the machine stops with a fault. -/
inductive Fault where
  /-- Raised by the engine turn alone, when the machine is busy and the pending word is no command. The spec has no
  such state (R32 makes only a legal word pending), and no run from reset reaches it. Safe (log entry 7). -/
  | pendingNotLegal
deriving DecidableEq, Repr

/-- Why an instruction has no meaning. -/
inductive Refusal where
  /-- Raised by an arm of exec whose instruction has no meaning yet; no arm is left so. Safe. -/
  | notModelled (mnemonic : String)
deriving DecidableEq, Repr

/-- R36: no flag set. -/
def StatusFlags.none : StatusFlags := ⟨false, false, false, false, false, false, false⟩

/-- R36: the state after reset. `pending` is unspecified there: 0 is the model's choice (log entry 3). -/
def State.reset : State where
  x        := Vector.replicate 8 0
  pb       := Vector.replicate 256 0
  cmdLast  := 0
  flags    := StatusFlags.none
  result   := 0
  ie       := ⟨false, false⟩
  busy     := false
  pending  := 0
  inputs   := []
  readData := 0

end Sys2Proof.Machine
end

