-- ==== Sys2Proof/Machine/Operands.lean ====
section
/-! DEFINITION. Machine/Operands.lean: the operand forms of a command (spec/30_encoding.md R71: a whole register, or
imm12) and the words of a 2048-bit value (spec/00_scope.md R8). -/

namespace Sys2Proof.Machine

/-- R8: word j of a value, index 0 least significant. -/
def wordOf (a : FixedInt) (j : Nat) : Word := a.extractLsb' (32 * j) 32

/-- R53: the value with word j replaced, its other words kept. -/
def setWord (a : FixedInt) (j : Nat) (v : Word) : FixedInt :=
  (a &&& ~~~((0xFFFFFFFF#2048) <<< (32 * j))) ||| (v.setWidth 2048 <<< (32 * j))

/-- R9: `x[i]`, the value of an operand register. -/
def State.reg (s : State) (r : RegIdx) : FixedInt := s.x[r]

/-- R9: `x[i] <- v`. -/
def State.setReg (s : State) (r : RegIdx) (v : FixedInt) : State := { s with x := s.x.set r.val v r.isLt }

/-- R71: `imm = zext_32(cmd[11:0])`, as the number every command uses it as. -/
def immOf (imm : Imm12) : Nat := imm.toNat

end Sys2Proof.Machine
end

