-- ==== Sys2Proof/Machine/Flags.lean ====
section
/-! DEFINITION. Machine/Flags.lean: STATUS as the host reads and clears it (spec/10_state.md R29), the error conditions
(spec/60_exceptions.md R181) and the interrupt output (R189). The core has no arithmetic flags (10_state.md R34). -/

namespace Sys2Proof.Machine

/-- R181: the error conditions. -/
inductive Condition where
  /-- R182 -/
  | divByZero
  /-- R183 -/
  | malformed
  /-- R184 -/
  | badIndex
  /-- R185 -/
  | illegal
  /-- R186 -/
  | overrun
  /-- R187 -/
  | badAccess
deriving DecidableEq, Repr

/-- R181: the STATUS bit number of a condition. -/
def Condition.code : Condition → Nat
  | .divByZero => 2
  | .malformed => 3
  | .badIndex => 4
  | .illegal => 5
  | .overrun => 6
  | .badAccess => 7

/-- R181: a primitive does `STATUS[code] <- 1` and nothing else. -/
def StatusFlags.set (f : StatusFlags) : Condition → StatusFlags
  | .divByZero => { f with dz := true }
  | .malformed => { f with malf := true }
  | .badIndex => { f with idx := true }
  | .illegal => { f with ill := true }
  | .overrun => { f with ovr := true }
  | .badAccess => { f with acc := true }

/-- R29: a host write of w clears each bit b in 1..7 with w[b] = 1. -/
def StatusFlags.clear (f : StatusFlags) (w : Word) : StatusFlags where
  done := f.done && !w.getLsbD 1
  dz   := f.dz && !w.getLsbD 2
  malf := f.malf && !w.getLsbD 3
  idx  := f.idx && !w.getLsbD 4
  ill  := f.ill && !w.getLsbD 5
  ovr  := f.ovr && !w.getLsbD 6
  acc  := f.acc && !w.getLsbD 7

/-- R29, R189: ERR, the OR of the error flags. -/
def StatusFlags.err (f : StatusFlags) : Bool := f.dz || f.malf || f.idx || f.ill || f.ovr || f.acc

/-- R29: the STATUS word, BUSY in bit 0 and bits [31:8] zero. -/
def State.statusWord (s : State) : Word :=
  (0#24 ++ BitVec.ofBool s.flags.acc ++ BitVec.ofBool s.flags.ovr ++ BitVec.ofBool s.flags.ill ++
    BitVec.ofBool s.flags.idx ++ BitVec.ofBool s.flags.malf ++ BitVec.ofBool s.flags.dz ++
    BitVec.ofBool s.flags.done ++ BitVec.ofBool s.busy).setWidth 32

/-- R31: the IE word, bits [31:2] zero. -/
def State.ieWord (s : State) : Word := (0#30 ++ BitVec.ofBool s.ie.errIe ++ BitVec.ofBool s.ie.doneIe).setWidth 32

/-- R31: a host write w sets IE[1:0] <- w[1:0]. -/
def InterruptEnable.ofWord (w : Word) : InterruptEnable := ⟨w.getLsbD 0, w.getLsbD 1⟩

/-- R189: the level of the interrupt output in a state. -/
def State.irq (s : State) : Bool := (s.ie.doneIe && s.flags.done) || (s.ie.errIe && s.flags.err)

end Sys2Proof.Machine
end

