-- ==== Sys2Proof/Machine/Ops.lean ====
section
/-! DEFINITION. Machine/Ops.lean: the named operations over the machine that commands and transactions share: raising
an error condition (the whole of what this hardware has for an exception: spec/60_exceptions.md R180, R181, R192),
clearing it (R190), issue and completion of a command (spec/10_state.md R32), and the words of the host window. -/

namespace Sys2Proof.Machine

/-- R181: `raise c` sets one sticky flag and nothing else. No state is saved and no control is transferred (R192). -/
def State.raise (s : State) (c : Condition) : State := { s with flags := s.flags.set c }

/-- `raise c` when the rule's condition holds. -/
def State.raiseIf (s : State) (b : Bool) (c : Condition) : State := bif b then s.raise c else s

/-- R190: the way back from an error condition, the host's W1C write to STATUS. -/
def State.clearFlags (s : State) (w : Word) : State := { s with flags := s.flags.clear w }

/-- R29: `STATUS.DONE <- 1`. -/
def State.setDone (s : State) : State := { s with flags := { s.flags with done := true } }

/-- R30: RESULT <- v. -/
def State.setResult (s : State) (v : Word) : State := { s with result := v }

/-- R31: a host write to IE. -/
def State.setIe (s : State) (w : Word) : State := { s with ie := InterruptEnable.ofWord w }

/-- R54: PB[m] <- v. -/
def State.setPair (s : State) (m : Fin 256) (v : Word) : State := { s with pb := s.pb.set m.val v m.isLt }

/-- R53: x[r].w[j] <- v. -/
def State.setRegWord (s : State) (r : RegIdx) (j : Fin 64) (v : Word) : State :=
  s.setReg r (setWord (s.reg r) j.val v)

/-- R32: the end of every completion step: `busy <- 0; STATUS.DONE <- 1`. -/
def State.complete (s : State) : State := State.setDone { s with busy := false }

/-- R32: a legal word becomes the pending command. -/
def State.accept (s : State) (v : Word) : State := { s with cmdLast := v, pending := v, busy := true }

/-- R32, R74, R185: an illegal word is recorded and reported, and nothing else changes. -/
def State.rejectIllegal (s : State) (v : Word) : State :=
  (State.raise { s with cmdLast := v } .illegal).setDone

/-- R32: what a host write of v to CMD does. -/
def State.issue (s : State) (v : Word) : State :=
  bif s.busy then s.raise .overrun
  else bif legal v then s.accept v
  else s.rejectIllegal v

/-- R200: reset gives every piece of the block's state its reset value; a pending command is abandoned. The inputs
still to come and the host's last read word are not the block's and stay (log entry 6). -/
def State.resetBlock (s : State) : State := { State.reset with inputs := s.inputs, readData := s.readData }

end Sys2Proof.Machine
end

