-- ==== Sys2Proof/Machine/Basic.lean ====
section
/-! DEFINITION. Machine/Basic.lean: layer 1 (spec/40_basic.md): the functions Add, Sub, Compare and FromWordList on
whole values, and the meanings of CLR, MOV, LDWL, ADD, SUB and CMP. Values are residues modulo 2^2048 and the
operations those of that ring (00_scope.md R12); the word-by-word forms of R104 to R106 stand in
Machine/WordLevel.lean (log entry 9). -/

namespace Sys2Proof.Machine

/-- R104: Add(A, B) = (a + b) mod 2^2048. -/
def fixAdd (a b : FixedInt) : FixedInt := a + b

/-- R105: Sub(A, B) = (a - b) mod 2^2048. -/
def fixSub (a b : FixedInt) : FixedInt := a - b

/-- R106: Compare(A, B), the numeric order of the unsigned values. -/
def fixCompare (a b : FixedInt) : Ordering :=
  if a < b then .lt else if a = b then .eq else .gt

/-- R106, R30: how RESULT holds an ordering. -/
def orderingWord : Ordering → Word
  | .lt => 0xFFFFFFFF
  | .eq => 0x00000000
  | .gt => 0x00000001

/-- R103: a word list read as (index, value) pairs, in order; a lone last word belongs to no pair. -/
def pairsOf : List Word → List (Word × Word)
  | i :: v :: rest => (i, v) :: pairsOf rest
  | _ => []

/-- R103: what building a value from a word list gives. -/
structure ListResult where
  value     : FixedInt
  malformed : Bool
  badIndex  : Bool
deriving DecidableEq, Repr

/-- R103: one pair sets one word; a pair whose index is 64 or more is skipped and noted. -/
def applyPair (t : FixedInt × Bool) (p : Word × Word) : FixedInt × Bool :=
  if 64 ≤ p.1.toNat then (t.1, true) else (setWord t.1 p.1.toNat p.2, t.2)

/-- R103: FromWordList. An odd length is malformed and gives Zero with no pair applied. -/
def fromWordList (l : List Word) : ListResult :=
  if l.length % 2 = 1 then ⟨0, true, false⟩
  else
    let t := (pairsOf l).foldl applyPair (0, false)
    ⟨t.1, false, t.2⟩

/-- R101 CLR: `x[rd] <- 0`. -/
def execClr (rd : RegIdx) (s : State) : Host.Outcome State Fault Refusal :=
  .next (s.setReg rd 0).complete

/-- R102 MOV: `x[rd] <- x[rs1]`. -/
def execMov (rd rs1 : RegIdx) (s : State) : Host.Outcome State Fault Refusal :=
  .next (s.setReg rd (s.reg rs1)).complete

/-- R103 LDWL: x[rd] from the list PB[0] .. PB[len-1]. -/
def execLdwl (rd : RegIdx) (len : Imm12) (s : State) : Host.Outcome State Fault Refusal :=
  let r := fromWordList (s.pb.toList.take (immOf len))
  .next (((s.setReg rd r.value).raiseIf r.malformed .malformed).raiseIf r.badIndex .badIndex).complete

/-- R104 ADD: `x[rd] <- (a + b) mod 2^2048`. -/
def execAdd (rd rs1 rs2 : RegIdx) (s : State) : Host.Outcome State Fault Refusal :=
  .next (s.setReg rd (fixAdd (s.reg rs1) (s.reg rs2))).complete

/-- R105 SUB: `x[rd] <- (a - b) mod 2^2048`. -/
def execSub (rd rs1 rs2 : RegIdx) (s : State) : Host.Outcome State Fault Refusal :=
  .next (s.setReg rd (fixSub (s.reg rs1) (s.reg rs2))).complete

/-- R106 CMP: RESULT <- the ordering of a and b. -/
def execCmp (rs1 rs2 : RegIdx) (s : State) : Host.Outcome State Fault Refusal :=
  .next (s.setResult (orderingWord (fixCompare (s.reg rs1) (s.reg rs2)))).complete

end Sys2Proof.Machine
end

