-- ==== Sys2Proof/Machine/Shift.lean ====
section
/-! DEFINITION. Machine/Shift.lean: layer 2 (spec/41_shift_bit.md): ShiftWordsUp, ShiftBitsUp, ShiftBitsDown,
BitLength and GetBit, for every shift amount, and the meanings of SHLW, SHL, SHR, BITLEN and GETBIT. -/

namespace Sys2Proof.Machine

/-- R120: ShiftWordsUp(X, k) = (X · 2^(32k)) mod 2^2048. -/
def shiftWordsUp (a : FixedInt) (k : Nat) : FixedInt := a <<< (32 * k)

/-- R121: ShiftBitsUp(X, n) = (X · 2^n) mod 2^2048. -/
def shiftBitsUp (a : FixedInt) (n : Nat) : FixedInt := a <<< n

/-- R122: ShiftBitsDown(X, n) = floor(X / 2^n). -/
def shiftBitsDown (a : FixedInt) (n : Nat) : FixedInt := a >>> n

/-- R123: BitLength(X), the index of the highest set bit plus one, 0 for Zero. -/
def bitLength (a : FixedInt) : Nat := if a = 0 then 0 else a.toNat.log2 + 1

/-- R124: bit i of X. -/
def fixGetBit (a : FixedInt) (i : Nat) : Bool := a.getLsbD i

/-- R124: what GETBIT leaves in RESULT: the bit, or the sentinel for an index of 2048 or more. -/
def getBitWord (a : FixedInt) (i : Nat) : Word :=
  if 2048 ≤ i then 0xFFFFFFFF else (BitVec.ofBool (fixGetBit a i)).setWidth 32

/-- R120 SHLW. -/
def execShlw (rd rs1 : RegIdx) (k : Imm12) (s : State) : Host.Outcome State Fault Refusal :=
  .next (s.setReg rd (shiftWordsUp (s.reg rs1) (immOf k))).complete

/-- R121 SHL. -/
def execShl (rd rs1 : RegIdx) (n : Imm12) (s : State) : Host.Outcome State Fault Refusal :=
  .next (s.setReg rd (shiftBitsUp (s.reg rs1) (immOf n))).complete

/-- R122 SHR. -/
def execShr (rd rs1 : RegIdx) (n : Imm12) (s : State) : Host.Outcome State Fault Refusal :=
  .next (s.setReg rd (shiftBitsDown (s.reg rs1) (immOf n))).complete

/-- R123 BITLEN: RESULT <- the bit length. -/
def execBitlen (rs1 : RegIdx) (s : State) : Host.Outcome State Fault Refusal :=
  .next (s.setResult (BitVec.ofNat 32 (bitLength (s.reg rs1)))).complete

/-- R124 GETBIT: RESULT <- bit i, or the sentinel; no flag either way. -/
def execGetbit (rs1 : RegIdx) (i : Imm12) (s : State) : Host.Outcome State Fault Refusal :=
  .next (s.setResult (getBitWord (s.reg rs1) (immOf i))).complete

end Sys2Proof.Machine
end

