-- ==== Sys2Proof/Machine/Multiply.lean ====
section
/-! DEFINITION. Machine/Multiply.lean: layer 3 (spec/42_multiply.md): MulWord and Mul, and the meanings of MULW and
MUL. The schoolbook forms stand in Machine/WordLevel.lean (log entry 9). -/

namespace Sys2Proof.Machine

/-- R130: MulWord(A, w) = (A · w) mod 2^2048. -/
def fixMulWord (a : FixedInt) (w : Word) : FixedInt := a * w.setWidth 2048

/-- R131: Mul(A, B) = (A · B) mod 2^2048. -/
def fixMul (a b : FixedInt) : FixedInt := a * b

/-- R130 MULW: the multiplier is word 0 of x[rs2]. -/
def execMulw (rd rs1 rs2 : RegIdx) (s : State) : Host.Outcome State Fault Refusal :=
  .next (s.setReg rd (fixMulWord (s.reg rs1) (wordOf (s.reg rs2) 0))).complete

/-- R131 MUL. -/
def execMul (rd rs1 rs2 : RegIdx) (s : State) : Host.Outcome State Fault Refusal :=
  .next (s.setReg rd (fixMul (s.reg rs1) (s.reg rs2))).complete

end Sys2Proof.Machine
end

