-- ==== Sys2Proof/Machine/Divide.lean ====
section
/-! DEFINITION. Machine/Divide.lean: layer 4 (spec/43_divide.md): bit-by-bit long division as R140 gives it, and the
meaning of DIVMOD. -/

namespace Sys2Proof.Machine

/-- R140: what DivMod answers, and whether it raised DivByZero. -/
structure DivResult where
  q      : FixedInt
  r      : FixedInt
  byZero : Bool
deriving DecidableEq, Repr

/-- R140: the bit position t - k at which this pass subtracts, one lower after an overshoot. -/
def divPosition (b r : FixedInt) : Nat :=
  let k := bitLength b
  let t := bitLength r
  if fixCompare r (shiftBitsUp b (t - k)) = .lt then t - 1 - k else t - k

/-- R140: the loop `while R ≥ B`, each pass lowering BitLength(R). `fuel` bounds the passes (log entry 10). -/
def divLoop (b : FixedInt) : Nat → FixedInt → FixedInt → FixedInt × FixedInt
  | 0, q, r => (q, r)
  | fuel + 1, q, r =>
    if fixCompare r b = .lt then (q, r)
    else
      let p := divPosition b r
      divLoop b fuel (q ||| shiftBitsUp 1 p) (fixSub r (shiftBitsUp b p))

/-- R140: DivMod(A, B), with zeros and DivByZero for B = 0. -/
def divMod (a b : FixedInt) : DivResult :=
  if b = 0 then ⟨0, 0, true⟩
  else
    let d := divLoop b (bitLength a) 0 a
    ⟨d.1, d.2, false⟩

/-- R140 DIVMOD: Q to x[rd], then R to x[r4], so that rd = r4 leaves R. -/
def execDivmod (rd r4 rs1 rs2 : RegIdx) (s : State) : Host.Outcome State Fault Refusal :=
  let d := divMod (s.reg rs1) (s.reg rs2)
  .next (((s.setReg rd d.q).setReg r4 d.r).raiseIf d.byZero .divByZero).complete

end Sys2Proof.Machine
end

