-- ==== Sys2Proof/Machine/Modular.lean ====
section
/-! DEFINITION. Machine/Modular.lean: layer 5 (spec/44_modular.md): square-and-multiply, Stein's GCD, LCM, Barrett
precomputation and reduction, modular exponentiation, built from the functions of layers 1 to 4, and the meanings of
POW, GCD, LCM, BMU, BRED and POWMOD. -/

namespace Sys2Proof.Machine

/-- R150: one bit of the exponent: multiply if it is 1, then square. The pair is (acc, s). -/
def powStep (b : FixedInt) (t : FixedInt × FixedInt) (i : Nat) : FixedInt × FixedInt :=
  (if fixGetBit b i then fixMul t.1 t.2 else t.1, fixMul t.2 t.2)

/-- R150: square-and-multiply over the bits of b, least significant first, from acc = 1. -/
def fixPow (a b : FixedInt) : FixedInt := ((List.range (bitLength b)).foldl (powStep b) (1, a)).1

/-- R151: both operands are even. -/
def bothEven (a b : FixedInt) : Bool := !fixGetBit a 0 && !fixGetBit b 0

/-- R151: the operands with their common factors of 2 taken out, and how many there were. -/
def stripCommon : Nat → FixedInt → FixedInt → Nat → FixedInt × FixedInt × Nat
  | 0, a, b, d => (a, b, d)
  | fuel + 1, a, b, d =>
    bif bothEven a b then stripCommon fuel (shiftBitsDown a 1) (shiftBitsDown b 1) (d + 1) else (a, b, d)

/-- R151: an operand with its factors of 2 stripped. -/
def stripTwos : Nat → FixedInt → FixedInt
  | 0, a => a
  | fuel + 1, a => bif fixGetBit a 0 then a else stripTwos fuel (shiftBitsDown a 1)

/-- R151: strip, swap so that the smaller is subtracted from the larger, subtract, until one operand is Zero. -/
def gcdLoop : Nat → FixedInt → FixedInt → FixedInt × FixedInt
  | 0, a, b => (a, b)
  | fuel + 1, a, b =>
    if a = 0 ∨ b = 0 then (a, b)
    else
      let a' := stripTwos (bitLength a) a
      let b' := stripTwos (bitLength b) b
      if fixCompare a' b' = .gt then gcdLoop fuel b' (fixSub a' b') else gcdLoop fuel a' (fixSub b' a')

/-- R151: GCD(A, B), a zero operand answered at once (D15). The fuels bound the loops (log entry 10). -/
def fixGcd (a b : FixedInt) : FixedInt :=
  if a = 0 then b
  else if b = 0 then a
  else
    let c := stripCommon (bitLength a) a b 0
    let g := gcdLoop (bitLength a + bitLength b + 1) c.1 c.2.1
    shiftBitsUp (if g.1 ≠ 0 then g.1 else g.2) c.2.2

/-- R154: BarrettMu(n), the quotient of 2^(2k), wrapped, by n; n = 0 divides by zero. -/
def barrettMu (n : FixedInt) : DivResult := divMod (shiftBitsUp 1 (2 * bitLength n)) n

/-- R156: p = q3 · n, what Reduce subtracts from x before its correction loops. -/
def barrettProduct (x n mu : FixedInt) : FixedInt :=
  let k := bitLength n
  let q1 := shiftBitsDown x (k - 1)
  let q2 := fixMul q1 mu
  let q3 := shiftBitsDown q2 (k + 1)
  fixMul q3 n

/-- R156: what Reduce answers, and whether it raised DivByZero. -/
structure ReduceResult where
  value  : FixedInt
  byZero : Bool
deriving DecidableEq, Repr

/-- R156: Reduce(x, n, μ). After the correction loops r is the Euclidean remainder of the signed difference x - p
(D18, D37; log entry 8); the loops themselves stand in Machine/WordLevel.lean. -/
def fixReduce (x n mu : FixedInt) : ReduceResult :=
  if n = 0 then ⟨0, true⟩
  else ⟨BitVec.ofInt 2048 (((x.toNat : Int) - (barrettProduct x n mu).toNat) % n.toNat), false⟩

/-- R158: one bit of the exponent, with a Barrett reduction after each product. The pair is (acc, s). -/
def powModStep (b n mu : FixedInt) (t : FixedInt × FixedInt) (i : Nat) : FixedInt × FixedInt :=
  (if fixGetBit b i then (fixReduce (fixMul t.1 t.2) n mu).value else t.1,
   (fixReduce (fixMul t.2 t.2) n mu).value)

/-- R158: PowMod(A, B, n, μ). -/
def fixPowMod (a b n mu : FixedInt) : ReduceResult :=
  if n = 0 then ⟨0, true⟩
  else ⟨((List.range (bitLength b)).foldl (powModStep b n mu) ((divMod 1 n).r, (divMod a n).r)).1, false⟩

/-- R150 POW. -/
def execPow (rd rs1 rs2 : RegIdx) (s : State) : Host.Outcome State Fault Refusal :=
  .next (s.setReg rd (fixPow (s.reg rs1) (s.reg rs2))).complete

/-- R152 GCD. -/
def execGcd (rd rs1 rs2 : RegIdx) (s : State) : Host.Outcome State Fault Refusal :=
  .next (s.setReg rd (fixGcd (s.reg rs1) (s.reg rs2))).complete

/-- R153 LCM: 0 for a zero operand, else (a / gcd) · b. What its division raises is passed on, though it never is. -/
def execLcm (rd rs1 rs2 : RegIdx) (s : State) : Host.Outcome State Fault Refusal :=
  let a := s.reg rs1
  let b := s.reg rs2
  if a = 0 ∨ b = 0 then .next (s.setReg rd 0).complete
  else
    let d := divMod a (fixGcd a b)
    .next ((s.setReg rd (fixMul d.q b)).raiseIf d.byZero .divByZero).complete

/-- R155 BMU: x[rd] <- BarrettMu(n), DZ for n = 0. -/
def execBmu (rd rs1 : RegIdx) (s : State) : Host.Outcome State Fault Refusal :=
  let d := barrettMu (s.reg rs1)
  .next ((s.setReg rd d.q).raiseIf d.byZero .divByZero).complete

/-- R157 BRED: x[rd] <- Reduce(x, n, μ), DZ for n = 0. -/
def execBred (rd rs1 rs2 rs3 : RegIdx) (s : State) : Host.Outcome State Fault Refusal :=
  let r := fixReduce (s.reg rs1) (s.reg rs2) (s.reg rs3)
  .next ((s.setReg rd r.value).raiseIf r.byZero .divByZero).complete

/-- R158 POWMOD: x[rd] <- PowMod(A, B, n, μ), DZ for n = 0. -/
def execPowmod (rd rs1 rs2 rs3 r4 : RegIdx) (s : State) : Host.Outcome State Fault Refusal :=
  let r := fixPowMod (s.reg rs1) (s.reg rs2) (s.reg rs3) (s.reg r4)
  .next ((s.setReg rd r.value).raiseIf r.byZero .divByZero).complete

end Sys2Proof.Machine
end

