-- ==== Sys2Proof/Machine/HostPort.lean ====
section
/-! DEFINITION. Machine/HostPort.lean: the block's one address space and the host's transactions on it
(spec/20_memory.md R50 to R59, spec/10_state.md R25 to R31). -/

namespace Sys2Proof.Machine

/-- R51: what stands at an offset. -/
inductive Place where
  | id
  | cfg
  | cmd
  | status
  | result
  | ie
  | reserved
  | pair (m : Fin 256)
  | window (r : RegIdx) (j : Fin 64)
deriving DecidableEq, Repr

/-- R50: the byte offset of an access, host address bits [11:0]; nothing above bit 11 is decoded. -/
def offsetOf (addr : Nat) : Nat := addr % 4096

/-- R50: the host address of an offset, from the open parameter BASE. -/
def hostAddress (off : Nat) : Nat := Config.base + off

/-- R51: the address map, for a word-aligned offset below 0x1000. -/
def placeOf (off : Nat) : Place :=
  match off with
  | 0x000 => .id
  | 0x004 => .cfg
  | 0x008 => .cmd
  | 0x00C => .status
  | 0x010 => .result
  | 0x014 => .ie
  | off =>
    if off < 0x400 then .reserved
    else if off < 0x800 then .pair (Fin.ofNat 256 ((off - 0x400) / 4))
    else .window (Fin.ofNat 8 ((off - 0x800) / 0x100)) (Fin.ofNat 64 (off % 0x100 / 4))

/-- R53: the offset of word j of register r. -/
def windowOffset (r : RegIdx) (j : Fin 64) : Nat := 0x800 + 0x100 * r.val + 4 * j.val

/-- R54: the offset of PB[m]. -/
def pairOffset (m : Fin 256) : Nat := 0x400 + 4 * m.val

/-- R52: the access is a 32-bit access at a multiple of 4. -/
def wholeWord (width : AccessWidth) (off : Nat) : Bool := width == .word && off % 4 == 0

/-- R55: the window and the pair buffer are closed while busy. -/
def State.closed (s : State) (off : Nat) : Bool := s.busy && decide (0x400 ≤ off)

/-- R52, R55: the block serves the access rather than refusing it. -/
def State.serves (s : State) (width : AccessWidth) (addr : Nat) : Bool :=
  wholeWord width (offsetOf addr) && !s.closed (offsetOf addr)

/-- R25, R53, R54, R56: the word a place holds. -/
def State.readPlace (s : State) : Place → Word
  | .id => Config.idWord
  | .cfg => Config.cfgWord
  | .cmd => s.cmdLast
  | .status => s.statusWord
  | .result => s.result
  | .ie => s.ieWord
  | .reserved => 0
  | .pair m => s.pb[m]
  | .window r j => wordOf (s.reg r) j.val

/-- R25, R53, R54, R56: what a served write of v does at a place; a read-only or reserved place ignores it. -/
def State.writePlace (s : State) (v : Word) : Place → State
  | .id => s
  | .cfg => s
  | .cmd => s.issue v
  | .status => s.clearFlags v
  | .result => s
  | .ie => s.setIe v
  | .reserved => s
  | .pair m => s.setPair m v
  | .window r j => s.setRegWord r j v

/-- R52, R55, R59: a host read. A refused one returns 0 and raises BadAccess; any other changes nothing of the block. -/
def State.hostRead (s : State) (width : AccessWidth) (addr : Nat) : State :=
  bif s.serves width addr then { s with readData := s.readPlace (placeOf (offsetOf addr)) }
  else { s.raise .badAccess with readData := 0 }

/-- R52, R55: a host write. A refused one has no effect but BadAccess. -/
def State.hostWrite (s : State) (width : AccessWidth) (addr : Nat) (v : Word) : State :=
  bif s.serves width addr then s.writePlace v (placeOf (offsetOf addr)) else s.raise .badAccess

/-- R57: the content of the block as bytes, for a host that views the window through its own bridge: byte k of the word
at an offset is its bits [8k+7:8k] (log entry 17). -/
def State.byteAt (s : State) (off : Nat) : Byte :=
  (s.readPlace (placeOf (off - off % 4))).extractLsb' (8 * (off % 4)) 8

end Sys2Proof.Machine
end

