-- ==== Sys2Proof/Machine/Dispatch.lean ====
section
/-! DEFINITION. Machine/Dispatch.lean: from a command to its meaning, one arm per constructor of Instr. -/

namespace Sys2Proof.Machine

/-- The completion step of a command (spec/10_state.md R32): its meaning at a state. -/
def exec (i : Instr) (s : State) : Host.Outcome State Fault Refusal :=
  match i with
  | .clr rd => Sys2Proof.Machine.execClr rd s
  | .mov rd rs1 => Sys2Proof.Machine.execMov rd rs1 s
  | .ldwl rd len => Sys2Proof.Machine.execLdwl rd len s
  | .add rd rs1 rs2 => Sys2Proof.Machine.execAdd rd rs1 rs2 s
  | .sub rd rs1 rs2 => Sys2Proof.Machine.execSub rd rs1 rs2 s
  | .cmp rs1 rs2 => Sys2Proof.Machine.execCmp rs1 rs2 s
  | .shlw rd rs1 k => Sys2Proof.Machine.execShlw rd rs1 k s
  | .shl rd rs1 n => Sys2Proof.Machine.execShl rd rs1 n s
  | .shr rd rs1 n => Sys2Proof.Machine.execShr rd rs1 n s
  | .bitlen rs1 => Sys2Proof.Machine.execBitlen rs1 s
  | .getbit rs1 k => Sys2Proof.Machine.execGetbit rs1 k s
  | .mulw rd rs1 rs2 => Sys2Proof.Machine.execMulw rd rs1 rs2 s
  | .mul rd rs1 rs2 => Sys2Proof.Machine.execMul rd rs1 rs2 s
  | .divmod rd r4 rs1 rs2 => Sys2Proof.Machine.execDivmod rd r4 rs1 rs2 s
  | .pow rd rs1 rs2 => Sys2Proof.Machine.execPow rd rs1 rs2 s
  | .gcd rd rs1 rs2 => Sys2Proof.Machine.execGcd rd rs1 rs2 s
  | .lcm rd rs1 rs2 => Sys2Proof.Machine.execLcm rd rs1 rs2 s
  | .bmu rd rs1 => Sys2Proof.Machine.execBmu rd rs1 s
  | .bred rd rs1 rs2 rs3 => Sys2Proof.Machine.execBred rd rs1 rs2 rs3 s
  | .powmod rd rs1 rs2 rs3 r4 => Sys2Proof.Machine.execPowmod rd rs1 rs2 rs3 r4 s

end Sys2Proof.Machine
end

