-- ==== Sys2Proof/Machine/Engine.lean ====
section
/-! DEFINITION. Machine/Engine.lean: what one event does (spec/10_state.md R32, spec/20_memory.md R60,
spec/70_reset_and_hazards.md R200, R207). -/

namespace Sys2Proof.Machine

/-- R32: the engine's turn. It takes its one step if it is busy, and has nothing to do if it is not. -/
def engineTurn (s : State) : Host.Outcome State Fault Refusal :=
  bif s.busy then
    match decode? s.pending with
    | some i => exec i s
    | none => .fault .pendingNotLegal
  else .next s

/-- R60: the event at the head of the total order takes effect. -/
def takeInput (i : Input) (s : State) : Host.Outcome State Fault Refusal :=
  match i with
  | .read width addr => .next (s.hostRead width addr)
  | .write width addr v => .next (s.hostWrite width addr v)
  | .engine => engineTurn s
  | .reset => .next s.resetBlock

/-- A command word made the pending command, as an idle CMD write of it does (R32), with the engine's turn next. A word
that is no command is put as the host's write of it to CMD instead (log entry 4). -/
def placeCommand (s : State) (v : Word) : State :=
  match decode? v with
  | some _ => { s.accept v with inputs := .engine :: s.inputs }
  | none => { s with inputs := .write .word 0x008 v :: s.inputs }

end Sys2Proof.Machine
end

