-- ==== Sys2Proof/Machine/Step.lean ====
section
/-! DEFINITION. Machine/Step.lean: one step of the machine, the next event of the total order of spec/20_memory.md R60,
and how the host places a command. -/

namespace Sys2Proof.Machine

/-- R60, R207: the oldest input takes effect. With no input left, the engine takes the step that is enabled, if one is:
an enabled engine step is eventually taken (log entry 2). -/
def step (s : State) : Host.Outcome State Fault Refusal :=
  match s.inputs with
  | [] => engineTurn s
  | i :: rest => takeInput i { s with inputs := rest }

/-- The state with the command of `nbits` bits `w` placed so that the very next step runs it (log entry 4). -/
def State.withFetchWord (s : State) (nbits w : Nat) : State := placeCommand s (tableWord nbits w)

end Sys2Proof.Machine
end

