-- ==== Sys2Proof/Machine/HostText.lean ====
section
/-! DEFINITION. Machine/HostText.lean: the host-side contracts for values as text, FromHex and printing
(spec/40_basic.md R110, R111). They are no commands (spec/00_scope.md R5); text is a list of characters (log entry 16). -/

namespace Sys2Proof.Machine

/-- R110 (1): space, tab, line feed, vertical tab, form feed, carriage return. -/
def isHexSpace (c : Char) : Bool :=
  c.toNat == 0x20 || c.toNat == 0x09 || c.toNat == 0x0A || c.toNat == 0x0B || c.toNat == 0x0C || c.toNat == 0x0D

/-- R110 (1): characters the contract removes, the hyphen of the printed form among them (90_conflicts.md C5). -/
def isHexFiller (c : Char) : Bool := isHexSpace c || c == '-'

/-- R110 (2): one leading "0x" or "0X" removed. -/
def dropHexPrefix : List Char → List Char
  | '0' :: 'x' :: rest => rest
  | '0' :: 'X' :: rest => rest
  | l => l

/-- R110 (3): the value of a hex digit; no other character has one. -/
def hexDigit? (c : Char) : Option Nat :=
  let n := c.toNat
  if 48 ≤ n ∧ n ≤ 57 then some (n - 48)
  else if 97 ≤ n ∧ n ≤ 102 then some (n - 87)
  else if 65 ≤ n ∧ n ≤ 70 then some (n - 55)
  else none

/-- R110 (3): the digits of a text, or nothing if some character is no digit. -/
def hexDigits? : List Char → Option (List Nat)
  | [] => some []
  | c :: rest => (hexDigit? c).bind fun d => (hexDigits? rest).map (d :: ·)

/-- R110 (4): digits numbered from the right, digit p standing for d · 16^p. -/
def nibbleValue : List Nat → Nat
  | [] => 0
  | d :: ds => d + 16 * nibbleValue ds

/-- R110: FromHex. Digits with p ≥ 512 are dropped (5); no digits give Zero (6); a text with any other character has
no value. -/
def fromHex (text : List Char) : Option FixedInt :=
  (hexDigits? (dropHexPrefix (text.filter fun c => !isHexFiller c))).map fun ds =>
    BitVec.ofNat 2048 (nibbleValue (ds.reverse.take 512))

/-- R111: a hex digit, lower case. -/
def hexChar (d : Nat) : Char := if d < 10 then Char.ofNat (48 + d) else Char.ofNat (87 + d)

/-- R111: a word as exactly 8 hex digits, most significant first. -/
def wordHex (w : Word) : List Char :=
  (List.range 8).reverse.map fun p => hexChar (w.toNat / 16 ^ p % 16)

/-- R111: the words below index n, from n - 1 down, each after a hyphen. -/
def lowerWordsHex (a : FixedInt) : Nat → List Char
  | 0 => []
  | n + 1 => '-' :: wordHex (wordOf a n) ++ lowerWordsHex a n

/-- R111: the printed form of a value. -/
def toHexText (a : FixedInt) : List Char :=
  if a = 0 then ['0']
  else
    let top := (bitLength a - 1) / 32
    (wordHex (wordOf a top)).dropWhile (· == '0') ++ lowerWordsHex a top

end Sys2Proof.Machine
end

