-- ==== Sys2Proof/Machine/Assembler.lean ====
section
/-! DEFINITION. Machine/Assembler.lean: the assembler syntax of commands and its one alias (spec/30_encoding.md R76,
R77). Text is a list of characters (log entry 15). -/

namespace Sys2Proof.Machine

/-- R77: `SQR rd, rs` assembles as `MUL rd, rs, rs`. -/
def sqr (rd rs : RegIdx) : Instr := .mul rd rs rs

/-- R76: a register operand `r0` .. `r7`, or an immediate `#n`. -/
inductive AsmOperand where
  | reg (r : RegIdx)
  | imm (n : Imm12)
deriving DecidableEq, Repr

/-- The value of decimal digits, most significant first; none for any other character. -/
def decimalValue? : List Char → Nat → Option Nat
  | [], acc => some acc
  | c :: rest, acc =>
    if 48 ≤ c.toNat ∧ c.toNat ≤ 57 then decimalValue? rest (10 * acc + (c.toNat - 48)) else none

/-- R76: the number of an immediate, decimal or 0x-prefixed hexadecimal; an empty one has none. -/
def number? : List Char → Option Nat
  | [] => none
  | ['0', 'x'] => none
  | '0' :: 'x' :: rest => (hexDigits? rest).map fun ds => nibbleValue ds.reverse
  | l => decimalValue? l 0

/-- R76: one operand. An immediate above 4095 is none. -/
def operand? : List Char → Option AsmOperand
  | ['r', c] => if h : 48 ≤ c.toNat ∧ c.toNat ≤ 55 then some (.reg ⟨c.toNat - 48, by omega⟩) else none
  | '#' :: rest => (number? rest).bind fun n => if n ≤ 4095 then some (.imm (BitVec.ofNat 12 n)) else none
  | _ => none

/-- The text cut at every comma. -/
def splitCommas : List Char → List (List Char)
  | [] => [[]]
  | c :: rest =>
    if c = ',' then [] :: splitCommas rest
    else match splitCommas rest with
      | [] => [[c]]
      | w :: ws => (c :: w) :: ws

/-- All operands of a list of texts, or none if one of them is no operand. -/
def operands? : List (List Char) → Option (List AsmOperand)
  | [] => some []
  | w :: ws => (operand? w).bind fun o => (operands? ws).map (o :: ·)

/-- R76, R77: the command of a mnemonic with its operands, destinations first. -/
def assembleParts : List Char → List AsmOperand → Option Instr
  | ['C', 'L', 'R'], [.reg rd] => some (.clr rd)
  | ['M', 'O', 'V'], [.reg rd, .reg rs1] => some (.mov rd rs1)
  | ['L', 'D', 'W', 'L'], [.reg rd, .imm len] => some (.ldwl rd len)
  | ['A', 'D', 'D'], [.reg rd, .reg rs1, .reg rs2] => some (.add rd rs1 rs2)
  | ['S', 'U', 'B'], [.reg rd, .reg rs1, .reg rs2] => some (.sub rd rs1 rs2)
  | ['C', 'M', 'P'], [.reg rs1, .reg rs2] => some (.cmp rs1 rs2)
  | ['S', 'H', 'L', 'W'], [.reg rd, .reg rs1, .imm k] => some (.shlw rd rs1 k)
  | ['S', 'H', 'L'], [.reg rd, .reg rs1, .imm n] => some (.shl rd rs1 n)
  | ['S', 'H', 'R'], [.reg rd, .reg rs1, .imm n] => some (.shr rd rs1 n)
  | ['B', 'I', 'T', 'L', 'E', 'N'], [.reg rs1] => some (.bitlen rs1)
  | ['G', 'E', 'T', 'B', 'I', 'T'], [.reg rs1, .imm i] => some (.getbit rs1 i)
  | ['M', 'U', 'L', 'W'], [.reg rd, .reg rs1, .reg rs2] => some (.mulw rd rs1 rs2)
  | ['M', 'U', 'L'], [.reg rd, .reg rs1, .reg rs2] => some (.mul rd rs1 rs2)
  | ['D', 'I', 'V', 'M', 'O', 'D'], [.reg rq, .reg rr, .reg rs1, .reg rs2] => some (.divmod rq rr rs1 rs2)
  | ['P', 'O', 'W'], [.reg rd, .reg rs1, .reg rs2] => some (.pow rd rs1 rs2)
  | ['G', 'C', 'D'], [.reg rd, .reg rs1, .reg rs2] => some (.gcd rd rs1 rs2)
  | ['L', 'C', 'M'], [.reg rd, .reg rs1, .reg rs2] => some (.lcm rd rs1 rs2)
  | ['B', 'M', 'U'], [.reg rd, .reg rs1] => some (.bmu rd rs1)
  | ['B', 'R', 'E', 'D'], [.reg rd, .reg rs1, .reg rs2, .reg rs3] => some (.bred rd rs1 rs2 rs3)
  | ['P', 'O', 'W', 'M', 'O', 'D'], [.reg rd, .reg rs1, .reg rs2, .reg rs3, .reg r4] =>
    some (.powmod rd rs1 rs2 rs3 r4)
  | ['S', 'Q', 'R'], [.reg rd, .reg rs] => some (sqr rd rs)
  | _, _ => none

/-- R76: a line of assembler text: a mnemonic, then operands separated by commas. An LDWL length above 256 has no
command. R76 is silent on spaces. That those before the mnemonic are skipped, that the first one after it ends it, and
that every later one is dropped, those inside an operand too (`#1 2` is #12, `r 3` is r3), is the model's choice (DESIGN
CHOICE, log entry 15). -/
def assemble (text : List Char) : Option Instr :=
  let line := text.dropWhile (· == ' ')
  let name := line.takeWhile (· != ' ')
  let rest := (line.dropWhile (· != ' ')).filter (· != ' ')
  match (operands? (splitCommas rest)).bind (assembleParts name) with
  | some i => if i.wellFormed then some i else none
  | none => none

/-- R76: the operand text of a register. -/
def regText (r : RegIdx) : List Char := ['r', Char.ofNat (48 + r.val)]

/-- Decimal digits of a number below 10000, without leading zeros. -/
def decimalText (n : Nat) : List Char :=
  let ds := [n / 1000 % 10, n / 100 % 10, n / 10 % 10].dropWhile (· == 0)
  (ds ++ [n % 10]).map fun d => Char.ofNat (48 + d)

/-- R76: the operand text of an immediate, in decimal. -/
def immText (k : Imm12) : List Char := '#' :: decimalText k.toNat

/-- R76: a mnemonic and its operand texts as one line. -/
def lineText (name : List Char) : List (List Char) → List Char
  | [] => name
  | o :: os => name ++ ' ' :: o ++ (os.map fun p => ',' :: ' ' :: p).flatten

/-- R76: the assembler text of a command. -/
def asmText : Instr → List Char
  | .clr rd => lineText ['C', 'L', 'R'] [regText rd]
  | .mov rd rs1 => lineText ['M', 'O', 'V'] [regText rd, regText rs1]
  | .ldwl rd len => lineText ['L', 'D', 'W', 'L'] [regText rd, immText len]
  | .add rd rs1 rs2 => lineText ['A', 'D', 'D'] [regText rd, regText rs1, regText rs2]
  | .sub rd rs1 rs2 => lineText ['S', 'U', 'B'] [regText rd, regText rs1, regText rs2]
  | .cmp rs1 rs2 => lineText ['C', 'M', 'P'] [regText rs1, regText rs2]
  | .shlw rd rs1 k => lineText ['S', 'H', 'L', 'W'] [regText rd, regText rs1, immText k]
  | .shl rd rs1 n => lineText ['S', 'H', 'L'] [regText rd, regText rs1, immText n]
  | .shr rd rs1 n => lineText ['S', 'H', 'R'] [regText rd, regText rs1, immText n]
  | .bitlen rs1 => lineText ['B', 'I', 'T', 'L', 'E', 'N'] [regText rs1]
  | .getbit rs1 k => lineText ['G', 'E', 'T', 'B', 'I', 'T'] [regText rs1, immText k]
  | .mulw rd rs1 rs2 => lineText ['M', 'U', 'L', 'W'] [regText rd, regText rs1, regText rs2]
  | .mul rd rs1 rs2 => lineText ['M', 'U', 'L'] [regText rd, regText rs1, regText rs2]
  | .divmod rd r4 rs1 rs2 =>
    lineText ['D', 'I', 'V', 'M', 'O', 'D'] [regText rd, regText r4, regText rs1, regText rs2]
  | .pow rd rs1 rs2 => lineText ['P', 'O', 'W'] [regText rd, regText rs1, regText rs2]
  | .gcd rd rs1 rs2 => lineText ['G', 'C', 'D'] [regText rd, regText rs1, regText rs2]
  | .lcm rd rs1 rs2 => lineText ['L', 'C', 'M'] [regText rd, regText rs1, regText rs2]
  | .bmu rd rs1 => lineText ['B', 'M', 'U'] [regText rd, regText rs1]
  | .bred rd rs1 rs2 rs3 => lineText ['B', 'R', 'E', 'D'] [regText rd, regText rs1, regText rs2, regText rs3]
  | .powmod rd rs1 rs2 rs3 r4 =>
    lineText ['P', 'O', 'W', 'M', 'O', 'D'] [regText rd, regText rs1, regText rs2, regText rs3, regText r4]

end Sys2Proof.Machine
end

