-- ==== Sys2Proof/Machine/HostProgram.lean ====
section
/-! DEFINITION. Machine/HostProgram.lean: the notation of host programs (spec/30_encoding.md R78) and the word lists a
host writes for LDWL (spec/40_basic.md R112), as the inputs they are. -/

namespace Sys2Proof.Machine

/-- R78: `WR off, v`, at the block's place in the host's addresses. -/
def wr (off : Nat) (v : Word) : Input := .write .word (hostAddress off) v

/-- R78: `RD off`. -/
def rd (off : Nat) : Input := .read .word (hostAddress off)

/-- R78: `WRX r, value`: the 64 words of x[r] through the window, lowest offset first. -/
def wrx (r : RegIdx) (value : FixedInt) : List Input :=
  (List.finRange 64).map fun j => wr (windowOffset r j) (wordOf value j.val)

/-- R78: `RDX r`: the 64 words read back, lowest offset first. -/
def rdx (r : RegIdx) : List Input := (List.finRange 64).map fun j => rd (windowOffset r j)

/-- R78: `ISSUE <command>`. -/
def issueOf (i : Instr) : Input := wr 0x008 (encode i)

/-- R78: `WAIT`: some polls of STATUS that still read BUSY, the engine's turn, and the poll that ends the loop. How many
polls there are is not the program's to say (log entry 18). -/
def waitInputs (polls : Nat) : List Input := List.replicate polls (rd 0x00C) ++ [.engine, rd 0x00C]

/-- R112: a word list of at most 256 words written to PB[0] onwards, then its LDWL; of a longer one the host works out
the value itself and writes its 64 words through the window. -/
def loadList (r : RegIdx) (l : List Word) : List Input :=
  if l.length ≤ 256 then
    l.zipIdx.map (fun p => wr (0x400 + 4 * p.2) p.1) ++ [issueOf (.ldwl r (BitVec.ofNat 12 l.length))]
  else wrx r (fromWordList l).value

end Sys2Proof.Machine
end

