-- ==== Sys2Proof/Machine/WordLevel.lean ====
section
/-! DEFINITION. Machine/WordLevel.lean: the word-by-word and loop forms in which the spec's pseudocode computes layers 1
to 3 (spec/40_basic.md R104 to R106, 41_shift_bit.md R120 to R123, 42_multiply.md R130, R131) and the correction loops
of Reduce (44_modular.md R156). The meanings compute on whole values; that both give the same results is stated, not
assumed (log entries 8, 9). -/

namespace Sys2Proof.Machine

/-- R8: the 64 words of a value, least significant first. -/
def wordsOf (a : FixedInt) : List Word := (List.range 64).map (wordOf a)

/-- R8: the number a list of words stands for, Σ w[j] · 2^(32 j). -/
def valOf : List Word → Nat
  | [] => 0
  | w :: ws => w.toNat + 2 ^ 32 * valOf ws

/-- R8: the value of a list of words. -/
def ofWords (l : List Word) : FixedInt := BitVec.ofNat 2048 (valOf l)

/-- R104: `s <- a.w[j] + b.w[j] + c`, word by word; the last carry is discarded. -/
def rippleAdd : List Word → List Word → Nat → List Word
  | a :: as, b :: bs, c =>
    let s := a.toNat + b.toNat + c
    BitVec.ofNat 32 s :: rippleAdd as bs (s / 2 ^ 32)
  | _, _, _ => []

/-- R104: ADD as ripple-carry addition. -/
def wordAdd (a b : FixedInt) : FixedInt := ofWords (rippleAdd (wordsOf a) (wordsOf b) 0)

/-- R105: `d <- a.w[j] - b.w[j] - bw`, word by word; the last borrow is discarded. -/
def rippleSub : List Word → List Word → Int → List Word
  | a :: as, b :: bs, bw =>
    let d : Int := a.toNat - b.toNat - bw
    BitVec.ofInt 32 d :: rippleSub as bs (if d < 0 then 1 else 0)
  | _, _, _ => []

/-- R105: SUB as ripple-borrow subtraction. -/
def wordSub (a b : FixedInt) : FixedInt := ofWords (rippleSub (wordsOf a) (wordsOf b) 0)

/-- R106: the first words that differ decide; none, EQ. -/
def scanCompare : List Word → List Word → Ordering
  | a :: as, b :: bs => if a ≠ b then (if a < b then .lt else .gt) else scanCompare as bs
  | _, _ => .eq

/-- R106: CMP from the most significant word down. -/
def wordCompare (a b : FixedInt) : Ordering := scanCompare (wordsOf a).reverse (wordsOf b).reverse

/-- R120: `t.w[j] <- a.w[j - k] if j >= k else 0`. -/
def wordShlw (a : FixedInt) (k : Nat) : FixedInt :=
  ofWords ((List.range 64).map fun j => if k ≤ j then wordOf a (j - k) else 0)

/-- R121: the word shift by n / 32, then the carry-propagating shift by n mod 32, skipped when that is 0. -/
def wordShl (a : FixedInt) (n : Nat) : FixedInt :=
  let s := n % 32
  let u := wordShlw a (n / 32)
  if s = 0 then u
  else ofWords ((List.range 64).map fun j =>
    (wordOf u j <<< s) ||| (if 1 ≤ j then wordOf u (j - 1) >>> (32 - s) else 0))

/-- R122: `u.w[j] <- a.w[j + q] if j + q <= 63 else 0`. -/
def wordShrw (a : FixedInt) (q : Nat) : FixedInt :=
  ofWords ((List.range 64).map fun j => if j + q ≤ 63 then wordOf a (j + q) else 0)

/-- R122: the word shift down, then the carry-propagating shift by n mod 32, skipped when that is 0. -/
def wordShr (a : FixedInt) (n : Nat) : FixedInt :=
  let s := n % 32
  let u := wordShrw a (n / 32)
  if s = 0 then u
  else ofWords ((List.range 64).map fun j =>
    (wordOf u j >>> s) ||| (if j + 1 ≤ 63 then wordOf u (j + 1) <<< (32 - s) else 0))

/-- R123: the scan from word n - 1 down to the first word that is not 0. -/
def scanBitLength (a : FixedInt) : Nat → Nat
  | 0 => 0
  | j + 1 => if wordOf a j ≠ 0 then 32 * j + (wordOf a j).toNat.log2 + 1 else scanBitLength a j

/-- R123: BITLEN by scanning the 64 words from the top. -/
def wordBitLength (a : FixedInt) : Nat := scanBitLength a 64

/-- R124: `(a.w[floor(i/32)] >> (i mod 32)) AND 1`, or the sentinel. -/
def wordGetBit (a : FixedInt) (i : Nat) : Word :=
  if 2048 ≤ i then 0xFFFFFFFF else (wordOf a (i / 32) >>> (i % 32)) &&& 1

/-- R130: `p <- a.w[j] * w + c`, word by word; the last carry is dropped. -/
def rippleMul (w : Word) : List Word → Nat → List Word
  | a :: as, c =>
    let p := a.toNat * w.toNat + c
    BitVec.ofNat 32 p :: rippleMul w as (p / 2 ^ 32)
  | [], _ => []

/-- R130: MULW with a 64-bit accumulator carried across the words. -/
def wordMulWord (a : FixedInt) (w : Word) : FixedInt := ofWords (rippleMul w (wordsOf a) 0)

/-- R131: one word of B: its partial product, shifted up by i words, added to the running sum. -/
def schoolbookStep (a b : FixedInt) (acc : FixedInt) (i : Nat) : FixedInt :=
  wordAdd acc (wordShlw (wordMulWord a (wordOf b i)) i)

/-- R131: MUL as the schoolbook sum over the 64 words of B. -/
def wordMul (a b : FixedInt) : FixedInt := (List.range 64).foldl (schoolbookStep a b) 0

/-- R156: `while r >= n: r <- r - n`, none if the fuel is spent first. -/
def correctDown (n : Int) : Nat → Int → Option Int
  | 0, _ => none
  | fuel + 1, r => if n ≤ r then correctDown n fuel (r - n) else some r

/-- R156: `while r < 0: r <- r + n`, none if the fuel is spent first. -/
def correctUp (n : Int) : Nat → Int → Option Int
  | 0, _ => none
  | fuel + 1, r => if r < 0 then correctUp n fuel (r + n) else some r

/-- R156: the signed difference x - p put through the two correction loops, each with the given fuel. -/
def reduceByLoops (fuel : Nat) (x n mu : FixedInt) : Option Int :=
  (correctDown n.toNat fuel ((x.toNat : Int) - (barrettProduct x n mu).toNat)).bind (correctUp n.toNat fuel)

end Sys2Proof.Machine
end

