-- ==== Sys2Proof/Safety.lean ====
section
/-! DEFINITION. Safety.lean: what the protocol of spec/10_state.md R32 keeps true between events, and the parts of the
state a command may write. -/

namespace Sys2Proof

open Sys2Proof.Machine

/-- R32, R28: while busy, the pending word is a legal command word, and it is the word CMD reads back. -/
def Machine.State.ProtocolInv (s : State) : Prop :=
  s.busy = true → legal s.pending = true ∧ s.cmdLast = s.pending

/-- R100, R32: the state a completion step leaves: a register file, RESULT and flags; busy cleared; the pair buffer,
the CMD read-back, IE, the pending word and the model's own fields as they were. -/
def Machine.State.completedWith (s : State) (x : Vector FixedInt 8) (result : Word) (flags : StatusFlags) : State :=
  { s with x := x, result := result, flags := flags, busy := false }

/-- R72, R76: the destination registers a command names. -/
def Instr.dests : Instr → List RegIdx
  | .clr rd => [rd]
  | .mov rd _ => [rd]
  | .ldwl rd _ => [rd]
  | .add rd _ _ => [rd]
  | .sub rd _ _ => [rd]
  | .cmp _ _ => []
  | .shlw rd _ _ => [rd]
  | .shl rd _ _ => [rd]
  | .shr rd _ _ => [rd]
  | .bitlen _ => []
  | .getbit _ _ => []
  | .mulw rd _ _ => [rd]
  | .mul rd _ _ => [rd]
  | .divmod rd r4 _ _ => [rd, r4]
  | .pow rd _ _ => [rd]
  | .gcd rd _ _ => [rd]
  | .lcm rd _ _ => [rd]
  | .bmu rd _ => [rd]
  | .bred rd _ _ _ => [rd]
  | .powmod rd _ _ _ _ => [rd]

/-- R30: the commands that write RESULT. -/
def Instr.writesResult : Instr → Bool
  | .clr _ => false
  | .mov _ _ => false
  | .ldwl _ _ => false
  | .add _ _ _ => false
  | .sub _ _ _ => false
  | .cmp _ _ => true
  | .shlw _ _ _ => false
  | .shl _ _ _ => false
  | .shr _ _ _ => false
  | .bitlen _ => true
  | .getbit _ _ => true
  | .mulw _ _ _ => false
  | .mul _ _ _ => false
  | .divmod _ _ _ _ => false
  | .pow _ _ _ => false
  | .gcd _ _ _ => false
  | .lcm _ _ _ => false
  | .bmu _ _ => false
  | .bred _ _ _ _ => false
  | .powmod _ _ _ _ _ => false

end Sys2Proof
end

