-- ==== Sys2Proof/Certificates/Slice0/Obligations.lean ====
section
/-! DEFINITION. Certificates/Slice0/Obligations.lean: the statements about MPA2048, one definition each, in the order of
OBLIGATIONS.json. -/

open Sys2Proof Sys2Proof.Machine

/-! ### Encoding -/

/-- Every well-formed command decodes back from its word (R70 to R76). -/
def Obligations.DecodeAfterEncodeGivesTheCommand : Prop :=
  ∀ i : Instr, i.wellFormed = true → decode (encode i) = .ok i

/-- Every word that decodes is the word of the command it decodes to, and that command is well formed (R72 to R74:
every word is exactly one command or illegal). -/
def Obligations.EncodeAfterDecodeGivesTheWord : Prop :=
  ∀ (v : Word) (i : Instr), decode v = .ok i → i.wellFormed = true ∧ encode i = v

/-- The decoder, which reads fields, accepts exactly the words that R74's masks call legal. -/
def Obligations.DecoderAcceptsExactlyLegalWords : Prop :=
  ∀ v : Word, (decode? v).isSome = legal v

/-- R72: no two rows of the opcode map match the same word. -/
def Obligations.NoWordMatchesTwoOpcodeRows : Prop :=
  ∀ (v : Word) (p q : OpcodeRow), p ∈ opcodeRows → q ∈ opcodeRows →
    p.matches v = true → q.matches v = true → p = q

/-- Words written out in the spec's rules decode to the commands they stand for, and four are no command. -/
def Obligations.SpecWordsDecodeAsWritten : Prop :=
  decode 0x0B000000 = .ok (.clr 3) ∧ decode 0x12200000 = .ok (.mov 2 1) ∧
  decode 0x18000006 = .ok (.ldwl 0 6) ∧ decode 0x22040000 = .ok (.add 2 0 1) ∧
  decode 0x30040000 = .ok (.cmp 0 1) ∧ decode 0x3A20003F = .ok (.shlw 2 1 63) ∧
  decode 0x58000800 = .ok (.getbit 0 2048) ∧ decode 0x6C040000 = .ok (.mul 4 0 1) ∧
  decode 0x75046000 = .ok (.divmod 5 6 0 1) ∧ decode 0x9B050000 = .ok (.bred 3 0 1 2) ∧
  decode 0xA310A000 = .ok (.powmod 3 0 4 1 2) ∧
  decode 0x00000000 = .error .reservedOpcode ∧ decode 0xA8000000 = .error .reservedOpcode ∧
  decode 0x31040000 = .error .unusedFieldNotZero ∧ decode 0x18000101 = .error .listTooLong

/-! ### The command protocol -/

/-- R32: while a command is pending, the engine's turn runs the command its word decodes to, whether the turn is the
next input or no input is left; the step adds nothing around exec but taking the input. That the events to come are a
list in State, and that an empty list means the engine's turn, is the model's choice (log entries 1 and 2). -/
def Obligations.StepRunsThePendingCommand : Prop :=
  ∀ (s : State) (i : Instr) (rest : List Input), s.busy = true → decode s.pending = .ok i →
    (s.inputs = .engine :: rest → step s = exec i { s with inputs := rest }) ∧
    (s.inputs = [] → step s = exec i s)

/-- A command placed with withFetchWord is what the very next step runs. That is the model's choice of how a program
comes to run (log entry 4). -/
def Obligations.PlacedCommandRunsNext : Prop :=
  ∀ (s : State) (nbits w : Nat) (i : Instr), decodeTableWord nbits w = some i →
    step (s.withFetchWord nbits w) =
      exec i { s with cmdLast := tableWord nbits w, pending := tableWord nbits w, busy := true }

/-- R32: a well-formed command that the host writes to CMD while idle becomes pending with no flag changed, and the
engine's turn after it executes it. The list of events is the model's (log entry 1). -/
def Obligations.IssuedCommandIsExecuted : Prop :=
  ∀ (s : State) (i : Instr) (rest : List Input), s.busy = false → i.wellFormed = true →
    s.inputs = .write .word (hostAddress 0x008) (encode i) :: .engine :: rest →
    ∃ u : State,
      u = { s with cmdLast := encode i, pending := encode i, busy := true, inputs := .engine :: rest } ∧
      step s = .next u ∧ step u = exec i { u with inputs := rest }

/-- R186: a CMD write while busy sets OVR and nothing else, whatever its word; the pending command then executes. -/
def Obligations.OverrunDropsTheWordOnly : Prop :=
  ∀ (s : State) (v : Word) (i : Instr), s.busy = true → decode s.pending = .ok i →
    s.hostWrite .word (hostAddress 0x008) v = { s with flags := { s.flags with ovr := true } } ∧
    engineTurn (s.hostWrite .word (hostAddress 0x008) v) =
      exec i { s with flags := { s.flags with ovr := true } }

/-- R185: a word with a reserved opcode, a non-zero unused field or an LDWL length above 256, written to CMD while idle,
is recorded in CMD, sets ILL and DONE, and does nothing else. -/
def Obligations.IllegalWordIsReportedNotExecuted : Prop :=
  ∀ (s : State) (v : Word), s.busy = false →
    ((v.extractLsb' 27 5).toNat = 0 ∨ 0x15 ≤ (v.extractLsb' 27 5).toNat ∨
      (∃ r ∈ opcodeRows, r.op = (v.extractLsb' 27 5).toNat ∧ v &&& r.mask ≠ r.value) ∨
      ((v.extractLsb' 27 5).toNat = 0x03 ∧ 256 < (v.extractLsb' 0 12).toNat)) →
    s.hostWrite .word (hostAddress 0x008) v =
      { s with cmdLast := v, flags := { s.flags with ill := true, done := true } }

/-- R32: the engine's turn has no effect while no command is pending. That such a turn is a step at all is the model's
choice (log entry 2). -/
def Obligations.IdleEngineTurnChangesNothing : Prop :=
  ∀ (s : State) (rest : List Input), s.busy = false →
    (s.inputs = .engine :: rest → step s = .next { s with inputs := rest }) ∧
    (s.inputs = [] → step s = .next s)

/-- From every state in which a busy machine has a legal pending word that CMD reads back, a step answers a next state,
and that state is such a state again: nothing the host, the engine or reset does can stop the machine. The list of
events is the model's (log entry 1), and the fault that the invariant rules out is too (log entry 7). -/
def Obligations.ProtocolInvariantHoldsAndNoStepStops : Prop :=
  ∀ s : State, s.ProtocolInv → ∃ t : State, step s = .next t ∧ t.ProtocolInv

/-- The protocol invariant holds at reset. -/
def Obligations.ResetMeetsTheProtocolInvariant : Prop := State.reset.ProtocolInv

/-- R207: from a state of the protocol the machine takes all its inputs and ends idle, in one step more than it has
inputs; and where no reset is among the inputs, a pending command completes on the way: some step, reached with the
command still pending and every operand register and pair buffer word as it was (R55), is the engine's turn that runs it.
The list of events and the engine's turn after its end are the model's (log entries 1 and 2). -/
def Obligations.EveryIssuedCommandCompletes : Prop :=
  ∀ s : State, s.ProtocolInv →
    (∃ t : State, Host.Core.run Sys2Proof.core (s.inputs.length + 1) s = .next t ∧ t.busy = false ∧ t.inputs = []) ∧
    (s.busy = true → Input.reset ∉ s.inputs → ∃ (i : Instr) (k : Nat) (u v : State),
      decode s.pending = .ok i ∧ k ≤ s.inputs.length ∧ Host.Core.run Sys2Proof.core k s = .next u ∧
      u.busy = true ∧ u.pending = s.pending ∧ u.x = s.x ∧ u.pb = s.pb ∧
      (u.inputs = [] ∨ ∃ rest : List Input, u.inputs = .engine :: rest) ∧
      step u = exec i { u with inputs := u.inputs.tail } ∧ step u = .next v ∧
      v.busy = false ∧ v.flags.done = true)

/-- R200: reset, at any time, gives every piece of the block's state its reset value in one step; nothing of a pending
command is left. That the events to come and the host's last read word stay is the model's choice (log entries 1, 5
and 6). -/
def Obligations.ResetClearsTheBlockAtAnyTime : Prop :=
  ∀ (s : State) (rest : List Input), s.inputs = .reset :: rest →
    ∃ t : State, step s = .next t ∧ (∀ r : RegIdx, t.x[r] = 0) ∧ (∀ m : Fin 256, t.pb[m] = 0) ∧
      t.cmdLast = 0 ∧ t.statusWord = 0 ∧ t.result = 0 ∧ t.ieWord = 0 ∧ t.busy = false ∧ t.irq = false ∧
      t.inputs = rest ∧ t.readData = s.readData

/-- R36: what a host reads after reset, offset by offset, the block idle and irq low. -/
def Obligations.ResetValuesReadAsTheSpecLists : Prop :=
  (∀ m : Fin 256, State.reset.readPlace (placeOf (pairOffset m)) = 0) ∧
  (∀ (r : RegIdx) (j : Fin 64), State.reset.readPlace (placeOf (windowOffset r j)) = 0) ∧
  State.reset.readPlace (placeOf 0x000) = 0x4D504131 ∧ State.reset.readPlace (placeOf 0x004) = 0x10084020 ∧
  State.reset.readPlace (placeOf 0x008) = 0 ∧ State.reset.readPlace (placeOf 0x00C) = 0 ∧
  State.reset.readPlace (placeOf 0x010) = 0 ∧ State.reset.readPlace (placeOf 0x014) = 0 ∧
  State.reset.busy = false ∧ State.reset.irq = false

/-! ### The host port -/

/-- R50: BASE is a multiple of 4096, and an access at BASE + off has offset off, wherever BASE is. -/
def Obligations.OffsetDoesNotDependOnBase : Prop :=
  Config.base % 4096 = 0 ∧ (∀ off : Nat, off < 4096 → offsetOf (hostAddress off) = off) ∧
  (∀ addr : Nat, offsetOf addr < 4096)

/-- R53: while idle, the window reads word j of register r and writes it alone, and its bytes in increasing offset order
are the register's value, least significant first. -/
def Obligations.WindowHoldsTheRegisterWords : Prop :=
  ∀ (s : State) (r : RegIdx) (j : Fin 64) (v : Word), s.busy = false →
    s.hostRead .word (hostAddress (windowOffset r j)) =
      { s with readData := BitVec.ofNat 32 (s.x[r].toNat / 2 ^ (32 * j.val)) } ∧
    (∃ y : FixedInt,
      s.hostWrite .word (hostAddress (windowOffset r j)) v = { s with x := s.x.set r y } ∧
      ∀ k : Fin 64, y.toNat / 2 ^ (32 * k.val) % 2 ^ 32 =
        if k = j then v.toNat else s.x[r].toNat / 2 ^ (32 * k.val) % 2 ^ 32) ∧
    (∀ k : Fin 256, (s.byteAt (0x800 + 0x100 * r.val + k.val)).toNat = s.x[r].toNat / 2 ^ (8 * k.val) % 256)

/-- R54: while idle, the pair buffer reads PB[m] and writes it alone. -/
def Obligations.PairBufferReadsAndWrites : Prop :=
  ∀ (s : State) (m : Fin 256) (v : Word), s.busy = false →
    s.hostRead .word (hostAddress (0x400 + 4 * m.val)) = { s with readData := s.pb[m] } ∧
    s.hostWrite .word (hostAddress (0x400 + 4 * m.val)) v = { s with pb := s.pb.set m v }

/-- R55: while busy, a read of 0x400 .. 0xFFF gives 0 and a write to it does nothing, either setting ACC; the control
registers at 0x000 .. 0x017 are read and written as ever. -/
def Obligations.WindowAndPairBufferCloseWhileBusy : Prop :=
  ∀ (s : State) (w : AccessWidth) (addr : Nat) (v : Word), s.busy = true →
    (0x400 ≤ offsetOf addr →
      s.hostRead w addr = { s with flags := { s.flags with acc := true }, readData := 0 } ∧
      s.hostWrite w addr v = { s with flags := { s.flags with acc := true } }) ∧
    (offsetOf addr < 0x018 → offsetOf addr % 4 = 0 →
      s.hostRead .word addr = { s with readData := s.readPlace (placeOf (offsetOf addr)) } ∧
      s.hostWrite .word addr v = s.writePlace v (placeOf (offsetOf addr)))

/-- R52: an access that is not 32 bits wide, or not at a multiple of 4, is refused: nothing written, 0 read, ACC set. -/
def Obligations.NarrowOrMisalignedAccessIsRefused : Prop :=
  ∀ (s : State) (w : AccessWidth) (addr : Nat) (v : Word), (w ≠ .word ∨ offsetOf addr % 4 ≠ 0) →
    s.hostRead w addr = { s with flags := { s.flags with acc := true }, readData := 0 } ∧
    s.hostWrite w addr v = { s with flags := { s.flags with acc := true } }

/-- R29: the bits of the STATUS word, and its W1C write: a host write of w clears each of the bits 1 to 7 that w has
set and leaves BUSY, the reserved bits and everything else as they were, busy or idle. -/
def Obligations.StatusBitsAndWriteOneToClear : Prop :=
  ∀ (s : State) (w : Word),
    (s.statusWord.getLsbD 0 = s.busy ∧ s.statusWord.getLsbD 1 = s.flags.done ∧
      s.statusWord.getLsbD 2 = s.flags.dz ∧ s.statusWord.getLsbD 3 = s.flags.malf ∧
      s.statusWord.getLsbD 4 = s.flags.idx ∧ s.statusWord.getLsbD 5 = s.flags.ill ∧
      s.statusWord.getLsbD 6 = s.flags.ovr ∧ s.statusWord.getLsbD 7 = s.flags.acc ∧
      ∀ b : Nat, 8 ≤ b → s.statusWord.getLsbD b = false) ∧
    ∃ t : State, s.hostWrite .word (hostAddress 0x00C) w = t ∧
      t.statusWord = s.statusWord &&& ~~~(w &&& 0xFE) ∧ t = { s with flags := t.flags }

/-- R56: reserved offsets read 0, and neither a write there nor a write to ID, CFG or RESULT has any effect or flag. -/
def Obligations.ReservedAndReadOnlyWritesAreIgnored : Prop :=
  ∀ (s : State) (off : Nat) (v : Word), off % 4 = 0 → off < 0x400 →
    (0x018 ≤ off → s.hostRead .word (hostAddress off) = { s with readData := 0 } ∧
      s.hostWrite .word (hostAddress off) v = s) ∧
    (off = 0x000 ∨ off = 0x004 ∨ off = 0x010 → s.hostWrite .word (hostAddress off) v = s)

/-- R26, R27: ID and CFG read their constants in every state, busy or idle. Beside them, likewise in every state: CMD
reads the last word issued and not dropped, STATUS the flags with BUSY, RESULT the last scalar answer, IE its two bits;
no such read changes anything else. -/
def Obligations.IdentificationReadsConstants : Prop :=
  ∀ s : State, s.hostRead .word (hostAddress 0x000) = { s with readData := 0x4D504131 } ∧
    s.hostRead .word (hostAddress 0x004) = { s with readData := 0x10084020 } ∧
    s.hostRead .word (hostAddress 0x008) = { s with readData := s.cmdLast } ∧
    s.hostRead .word (hostAddress 0x00C) = { s with readData := s.statusWord } ∧
    s.hostRead .word (hostAddress 0x010) = { s with readData := s.result } ∧
    s.hostRead .word (hostAddress 0x014) = { s with readData := s.ieWord }

/-- R31: a host write to IE sets its two bits from the word's two low bits, enabling the interrupt on DONE and on ERR;
the other bits read 0. -/
def Obligations.InterruptEnableWrite : Prop :=
  State.reset.ieWord = 0 ∧ ∀ (s : State) (w : Word), ∃ t : State,
    s.hostWrite .word (hostAddress 0x014) w = t ∧ t = { s with ie := t.ie } ∧
    t.hostRead .word (hostAddress 0x014) = { t with readData := w &&& 3 } ∧
    (t.irq = ((w.getLsbD 0 && s.flags.done) || (w.getLsbD 1 && s.flags.err)))

/-- R189: irq as a function of the two words a host reads: DONEIE and DONE, or ERRIE and any of bits 2 to 7. -/
def Obligations.InterruptLevelFromStatusAndEnable : Prop :=
  ∀ s : State, s.irq = true ↔
    (s.ieWord.getLsbD 0 = true ∧ s.statusWord.getLsbD 1 = true) ∨
    (s.ieWord.getLsbD 1 = true ∧ s.statusWord &&& 0xFC ≠ 0)

/-- R59: a host read changes no state of the block but ACC, which it sets exactly when it is refused; reading again
changes nothing more; and while idle a write to a window or PB word, done twice, is as done once. -/
def Obligations.ReadsChangeNothingButAcc : Prop :=
  ∀ (s : State) (w : AccessWidth) (addr : Nat) (v : Word),
    (s.hostRead w addr = { s with
      flags := { s.flags with acc := s.flags.acc || !s.serves w addr }
      readData := (s.hostRead w addr).readData }) ∧
    (s.hostRead w addr).hostRead w addr = s.hostRead w addr ∧
    (s.busy = false → 0x400 ≤ offsetOf addr →
      (s.hostWrite w addr v).hostWrite w addr v = s.hostWrite w addr v)

/-! ### What may change what, over all steps -/

/-- R190: a STATUS flag that a step clears was cleared by a host write of 1 to its bit, or by reset. That the events are
a list is the model's choice (log entry 1). -/
def Obligations.OnlyHostOrResetClearsAFlag : Prop :=
  ∀ (s t : State) (b : Nat), 1 ≤ b → step s = .next t →
    s.statusWord.getLsbD b = true → t.statusWord.getLsbD b = false →
    ∃ rest : List Input, s.inputs = .reset :: rest ∨
      ∃ (addr : Nat) (w : Word), s.inputs = .write .word addr w :: rest ∧ offsetOf addr = 0x00C ∧ w.getLsbD b = true

/-- R30: RESULT changes only at the completion of a CMP, BITLEN or GETBIT, or by reset. That the events are a list, and
that an empty one means the engine's turn, is the model's choice (log entries 1 and 2). -/
def Obligations.OnlyScalarCommandsChangeResult : Prop :=
  ∀ s t : State, step s = .next t → t.result ≠ s.result →
    (∃ rest : List Input, s.inputs = .reset :: rest) ∨
    (s.busy = true ∧ t.busy = false ∧ (s.inputs = [] ∨ ∃ rest : List Input, s.inputs = .engine :: rest) ∧
      ∃ i : Instr, decode s.pending = .ok i ∧ i.writesResult = true)

/-- R21, R22: an operand register changes only by the completion of a command that names it as a destination, by an
idle host write into its window, or by reset; R24: a PB word only by an idle host write to it, or by reset. That the
events are a list, and that an empty one means the engine's turn, is the model's choice (log entries 1 and 2). -/
def Obligations.OperandsChangeOnlyWhereNamed : Prop :=
  ∀ s t : State, step s = .next t →
    (∀ r : RegIdx, t.x[r] ≠ s.x[r] →
      (∃ rest : List Input, s.inputs = .reset :: rest) ∨
      (s.busy = true ∧ t.busy = false ∧ (s.inputs = [] ∨ ∃ rest : List Input, s.inputs = .engine :: rest) ∧
        ∃ i : Instr, decode s.pending = .ok i ∧ r ∈ i.dests) ∨
      (s.busy = false ∧ ∃ (addr : Nat) (v : Word) (j : Fin 64) (rest : List Input),
        s.inputs = .write .word addr v :: rest ∧ offsetOf addr = 0x800 + 0x100 * r.val + 4 * j.val)) ∧
    (∀ m : Fin 256, t.pb[m] ≠ s.pb[m] →
      (∃ rest : List Input, s.inputs = .reset :: rest) ∨
      (s.busy = false ∧ ∃ (addr : Nat) (v : Word) (rest : List Input),
        s.inputs = .write .word addr v :: rest ∧ offsetOf addr = 0x400 + 4 * m.val))

/-- R22, R100: the frame of every command. A register it does not name as a destination, the pair buffer, CMD, IE, the
pending word, ILL, OVR, ACC and the model's own fields are unchanged; RESULT is unchanged unless it is CMP, BITLEN or
GETBIT; DONE is set, busy cleared, and DZ, MALF and IDX are never cleared. -/
def Obligations.CommandWritesOnlyWhatItNames : Prop :=
  ∀ (i : Instr) (s : State), ∃ t : State, exec i s = .next t ∧
    (∀ r : RegIdx, r ∉ i.dests → t.x[r] = s.x[r]) ∧
    (i.writesResult = false → t.result = s.result) ∧
    t.pb = s.pb ∧ t.cmdLast = s.cmdLast ∧ t.ie = s.ie ∧ t.pending = s.pending ∧ t.inputs = s.inputs ∧
    t.readData = s.readData ∧ t.busy = false ∧ t.flags.done = true ∧ t.flags.ill = s.flags.ill ∧
    t.flags.ovr = s.flags.ovr ∧ t.flags.acc = s.flags.acc ∧ (s.flags.dz = true → t.flags.dz = true) ∧
    (s.flags.malf = true → t.flags.malf = true) ∧ (s.flags.idx = true → t.flags.idx = true)

/-- The same frame byte by byte, in the byte order of R57: every byte of the block's 4 KiB of content outside STATUS,
outside RESULT for the commands that write it, and outside the 256 bytes of each destination register is as before. The
bytes are those of State.byteAt, the model's own view (log entry 17): it shows the content while busy too, where a host's
access of the window or the pair buffer is refused and reads 0 (R55). -/
def Obligations.CommandStoresNoOtherByte : Prop :=
  ∀ (i : Instr) (s t : State) (off : Nat), exec i s = .next t → off < 4096 →
    ¬(0x00C ≤ off ∧ off < 0x010) → ¬(i.writesResult = true ∧ 0x010 ≤ off ∧ off < 0x014) →
    (∀ r ∈ i.dests, ¬(0x800 + 0x100 * r.val ≤ off ∧ off < 0x900 + 0x100 * r.val)) →
    t.byteAt off = s.byteAt off

/-- R182, R183, R184, R188: which commands raise which error. DZ comes from DIVMOD, BMU, BRED and POWMOD with a zero
divisor or modulus alone; MALF from an LDWL of odd length alone; IDX from an LDWL of even length with a pair index of
64 or more alone. -/
def Obligations.EachErrorHasItsOneCause : Prop :=
  ∀ (i : Instr) (s t : State), i.wellFormed = true → exec i s = .next t →
    (t.flags.dz = true ↔ s.flags.dz = true ∨
      (∃ rd r4 rs1 rs2, i = .divmod rd r4 rs1 rs2 ∧ s.x[rs2] = 0) ∨ (∃ rd rs1, i = .bmu rd rs1 ∧ s.x[rs1] = 0) ∨
      (∃ rd rs1 rs2 rs3, i = .bred rd rs1 rs2 rs3 ∧ s.x[rs2] = 0) ∨
      (∃ rd rs1 rs2 rs3 r4, i = .powmod rd rs1 rs2 rs3 r4 ∧ s.x[rs3] = 0)) ∧
    (t.flags.malf = true ↔ s.flags.malf = true ∨ ∃ rd len, i = .ldwl rd len ∧ len.toNat % 2 = 1) ∧
    (t.flags.idx = true ↔ s.flags.idx = true ∨
      ∃ rd len m, i = .ldwl rd len ∧ len.toNat % 2 = 0 ∧ 2 * m + 1 < len.toNat ∧ 64 ≤ (s.pb[2 * m]?.getD 0).toNat)

/-! ### Layer 1 -/

/-- R101, R102: CLR completes with x[rd] = 0, MOV with x[rd] the value of x[rs1]. -/
def Obligations.ClrWritesZeroAndMovCopies : Prop :=
  ∀ (s : State) (rd rs1 : RegIdx),
    (encode (.clr rd)).toNat = 0x01 * 2 ^ 27 + rd.val * 2 ^ 24 ∧
    (encode (.mov rd rs1)).toNat = 0x02 * 2 ^ 27 + rd.val * 2 ^ 24 + rs1.val * 2 ^ 21 ∧
    exec (.clr rd) s = .next (s.completedWith (s.x.set rd 0) s.result { s.flags with done := true }) ∧
    exec (.mov rd rs1) s = .next (s.completedWith (s.x.set rd s.x[rs1]) s.result { s.flags with done := true })

/-- R103: LDWL. An odd length gives Zero and MALF alone. An even one gives the value each of whose words holds the value
of the last pair that names it, or 0 where none does, and sets IDX exactly if some pair has an index of 64 or more. -/
def Obligations.LdwlBuildsTheListedWords : Prop :=
  ∀ (s : State) (rd : RegIdx) (len : Imm12), len.toNat ≤ 256 →
    (encode (.ldwl rd len)).toNat = 0x03 * 2 ^ 27 + rd.val * 2 ^ 24 + len.toNat ∧
    (len.toNat % 2 = 1 → exec (.ldwl rd len) s =
      .next (s.completedWith (s.x.set rd 0) s.result { s.flags with done := true, malf := true })) ∧
    (len.toNat % 2 = 0 → ∃ (y : FixedInt) (bad : Bool), exec (.ldwl rd len) s =
        .next (s.completedWith (s.x.set rd y) s.result
          { s.flags with done := true, idx := s.flags.idx || bad }) ∧
      (bad = true ↔ ∃ m : Nat, m < len.toNat / 2 ∧ 64 ≤ (s.pb[2 * m]?.getD 0).toNat) ∧
      (∀ j : Fin 64, (∀ m : Nat, m < len.toNat / 2 → (s.pb[2 * m]?.getD 0).toNat ≠ j.val) →
        wordOf y j.val = 0) ∧
      (∀ (j : Fin 64) (m : Nat), m < len.toNat / 2 → (s.pb[2 * m]?.getD 0).toNat = j.val →
        (∀ l : Nat, m < l → l < len.toNat / 2 → (s.pb[2 * l]?.getD 0).toNat ≠ j.val) →
        wordOf y j.val = s.pb[2 * m + 1]?.getD 0))

/-- R104: ADD completes with the ripple-carry sum of the source words, which is the sum modulo 2^2048. -/
def Obligations.AddIsRippleCarryAddition : Prop :=
  ∀ (s : State) (rd rs1 rs2 : RegIdx),
    (encode (.add rd rs1 rs2)).toNat = 0x04 * 2 ^ 27 + rd.val * 2 ^ 24 + rs1.val * 2 ^ 21 + rs2.val * 2 ^ 18 ∧
    exec (.add rd rs1 rs2) s = .next (s.completedWith (s.x.set rd (wordAdd s.x[rs1] s.x[rs2])) s.result
      { s.flags with done := true }) ∧
    (wordAdd s.x[rs1] s.x[rs2]).toNat = (s.x[rs1].toNat + s.x[rs2].toNat) % 2 ^ 2048

/-- R105: SUB completes with the ripple-borrow difference of the source words, which is the difference modulo 2^2048,
whichever operand is larger. -/
def Obligations.SubIsRippleBorrowSubtraction : Prop :=
  ∀ (s : State) (rd rs1 rs2 : RegIdx),
    (encode (.sub rd rs1 rs2)).toNat = 0x05 * 2 ^ 27 + rd.val * 2 ^ 24 + rs1.val * 2 ^ 21 + rs2.val * 2 ^ 18 ∧
    exec (.sub rd rs1 rs2) s = .next (s.completedWith (s.x.set rd (wordSub s.x[rs1] s.x[rs2])) s.result
      { s.flags with done := true }) ∧
    ((wordSub s.x[rs1] s.x[rs2]).toNat : Int) = ((s.x[rs1].toNat : Int) - s.x[rs2].toNat) % 2 ^ 2048

/-- R106: CMP completes with RESULT the outcome of the word scan from the top, which is the numeric order. -/
def Obligations.CmpScansFromTheTopWord : Prop :=
  ∀ (s : State) (rs1 rs2 : RegIdx), ∃ v : Word,
    (encode (.cmp rs1 rs2)).toNat = 0x06 * 2 ^ 27 + rs1.val * 2 ^ 21 + rs2.val * 2 ^ 18 ∧
    exec (.cmp rs1 rs2) s = .next (s.completedWith s.x v { s.flags with done := true }) ∧
    (v = match wordCompare s.x[rs1] s.x[rs2] with
      | .lt => 0xFFFFFFFF
      | .eq => 0
      | .gt => 1) ∧
    (v = if s.x[rs1].toNat < s.x[rs2].toNat then 0xFFFFFFFF else if s.x[rs1].toNat = s.x[rs2].toNat then 0 else 1)

/-- R107: ADD of (SUB of A and B) and B gives A, for all values A and B; and so run as two commands, the first of which
leaves B in its register. -/
def Obligations.AddUndoesSub : Prop :=
  (∀ a b : FixedInt, wordAdd (wordSub a b) b = a) ∧
  ∀ (s : State) (rd rs1 rs2 : RegIdx), rd ≠ rs2 →
    ∃ t u : State, exec (.sub rd rs1 rs2) s = .next t ∧ exec (.add rd rd rs2) t = .next u ∧ u.x[rd] = s.x[rs1]

/-! ### Layer 2 -/

/-- R120: SHLW completes with each word moved k places up; that word move is the product with 2^(32m) modulo 2^2048,
for every number of places m. -/
def Obligations.ShlwMovesWordsUp : Prop :=
  ∀ (s : State) (rd rs1 : RegIdx) (k : Imm12),
    (encode (.shlw rd rs1 k)).toNat = 0x07 * 2 ^ 27 + rd.val * 2 ^ 24 + rs1.val * 2 ^ 21 + k.toNat ∧
    exec (.shlw rd rs1 k) s = .next (s.completedWith (s.x.set rd (wordShlw s.x[rs1] k.toNat)) s.result
      { s.flags with done := true }) ∧
    ∀ m : Nat, (wordShlw s.x[rs1] m).toNat = s.x[rs1].toNat * 2 ^ (32 * m) % 2 ^ 2048

/-- R121: SHL completes with the word shift and the carry-propagating bit shift, which is the product with 2^m modulo
2^2048 for every shift m. -/
def Obligations.ShlShiftsWordsThenBits : Prop :=
  ∀ (s : State) (rd rs1 : RegIdx) (n : Imm12),
    (encode (.shl rd rs1 n)).toNat = 0x08 * 2 ^ 27 + rd.val * 2 ^ 24 + rs1.val * 2 ^ 21 + n.toNat ∧
    exec (.shl rd rs1 n) s = .next (s.completedWith (s.x.set rd (wordShl s.x[rs1] n.toNat)) s.result
      { s.flags with done := true }) ∧
    ∀ m : Nat, (wordShl s.x[rs1] m).toNat = s.x[rs1].toNat * 2 ^ m % 2 ^ 2048

/-- R122: SHR completes with the word shift and the carry-propagating bit shift down, which is the floor quotient by
2^m for every shift m. -/
def Obligations.ShrShiftsWordsThenBits : Prop :=
  ∀ (s : State) (rd rs1 : RegIdx) (n : Imm12),
    (encode (.shr rd rs1 n)).toNat = 0x09 * 2 ^ 27 + rd.val * 2 ^ 24 + rs1.val * 2 ^ 21 + n.toNat ∧
    exec (.shr rd rs1 n) s = .next (s.completedWith (s.x.set rd (wordShr s.x[rs1] n.toNat)) s.result
      { s.flags with done := true }) ∧
    ∀ m : Nat, (wordShr s.x[rs1] m).toNat = s.x[rs1].toNat / 2 ^ m

/-- R123: BITLEN completes with RESULT the outcome of the scan from the top word, the least b with X < 2^b. -/
def Obligations.BitlenScansFromTheTopWord : Prop :=
  ∀ (s : State) (rs1 : RegIdx), ∃ v : Word,
    (encode (.bitlen rs1)).toNat = 0x0A * 2 ^ 27 + rs1.val * 2 ^ 21 ∧
    exec (.bitlen rs1) s = .next (s.completedWith s.x v { s.flags with done := true }) ∧
    v.toNat = wordBitLength s.x[rs1] ∧ v.toNat ≤ 2048 ∧
    ∀ b : Nat, s.x[rs1].toNat < 2 ^ b ↔ v.toNat ≤ b

/-- R124: GETBIT completes with RESULT the bit the pseudocode takes from word i / 32, or the sentinel for an index of
2048 or more, and no flag. -/
def Obligations.GetbitReadsOneBit : Prop :=
  ∀ (s : State) (rs1 : RegIdx) (i : Imm12), ∃ v : Word,
    (encode (.getbit rs1 i)).toNat = 0x0B * 2 ^ 27 + rs1.val * 2 ^ 21 + i.toNat ∧
    exec (.getbit rs1 i) s = .next (s.completedWith s.x v { s.flags with done := true }) ∧
    v = wordGetBit s.x[rs1] i.toNat ∧
    v = if 2048 ≤ i.toNat then 0xFFFFFFFF else BitVec.ofNat 32 (s.x[rs1].toNat / 2 ^ i.toNat % 2)

/-! ### Layer 3 -/

/-- R130: MULW completes with the carried word products of A by word 0 of x[rs2], whatever its other words are; the
word products by any 32-bit w are the product modulo 2^2048. -/
def Obligations.MulwMultipliesByTheLowWord : Prop :=
  ∀ (s : State) (rd rs1 rs2 : RegIdx),
    (encode (.mulw rd rs1 rs2)).toNat = 0x0C * 2 ^ 27 + rd.val * 2 ^ 24 + rs1.val * 2 ^ 21 + rs2.val * 2 ^ 18 ∧
    exec (.mulw rd rs1 rs2) s = .next (s.completedWith
      (s.x.set rd (wordMulWord s.x[rs1] (wordOf s.x[rs2] 0))) s.result { s.flags with done := true }) ∧
    (∀ w : Word, (wordMulWord s.x[rs1] w).toNat = s.x[rs1].toNat * w.toNat % 2 ^ 2048) ∧
    (wordOf s.x[rs2] 0).toNat = s.x[rs2].toNat % 2 ^ 32

/-- R131: MUL completes with the schoolbook sum of shifted partial products, which is the product modulo 2^2048. -/
def Obligations.MulIsSchoolbookMultiplication : Prop :=
  ∀ (s : State) (rd rs1 rs2 : RegIdx),
    (encode (.mul rd rs1 rs2)).toNat = 0x0D * 2 ^ 27 + rd.val * 2 ^ 24 + rs1.val * 2 ^ 21 + rs2.val * 2 ^ 18 ∧
    exec (.mul rd rs1 rs2) s = .next (s.completedWith (s.x.set rd (wordMul s.x[rs1] s.x[rs2])) s.result
      { s.flags with done := true }) ∧
    (wordMul s.x[rs1] s.x[rs2]).toNat = s.x[rs1].toNat * s.x[rs2].toNat % 2 ^ 2048

/-! ### Layer 4 -/

/-- R140, R141: DIVMOD completes, for a divisor that is not Zero, with the floor quotient in x[rd] and then the
remainder in x[r4], no flag raised; for a zero divisor with zeros in both and DZ. -/
def Obligations.DivmodIsExact : Prop :=
  ∀ (s : State) (rd r4 rs1 rs2 : RegIdx),
    (encode (.divmod rd r4 rs1 rs2)).toNat =
      0x0E * 2 ^ 27 + rd.val * 2 ^ 24 + rs1.val * 2 ^ 21 + rs2.val * 2 ^ 18 + r4.val * 2 ^ 12 ∧
    (s.x[rs2] ≠ 0 → exec (.divmod rd r4 rs1 rs2) s = .next (s.completedWith
      ((s.x.set rd (BitVec.ofNat 2048 (s.x[rs1].toNat / s.x[rs2].toNat))).set r4
        (BitVec.ofNat 2048 (s.x[rs1].toNat % s.x[rs2].toNat))) s.result { s.flags with done := true })) ∧
    (s.x[rs2] = 0 → exec (.divmod rd r4 rs1 rs2) s = .next (s.completedWith
      ((s.x.set rd 0).set r4 0) s.result { s.flags with done := true, dz := true }))

/-! ### Layer 5 -/

/-- R150: POW completes with A^B modulo 2^2048, for all A and B. -/
def Obligations.PowIsThePowerModuloCapacity : Prop :=
  ∀ (s : State) (rd rs1 rs2 : RegIdx),
    (encode (.pow rd rs1 rs2)).toNat = 0x0F * 2 ^ 27 + rd.val * 2 ^ 24 + rs1.val * 2 ^ 21 + rs2.val * 2 ^ 18 ∧
    exec (.pow rd rs1 rs2) s = .next (s.completedWith
      (s.x.set rd (BitVec.ofNat 2048 (s.x[rs1].toNat ^ s.x[rs2].toNat))) s.result { s.flags with done := true })

/-- R151, R152: GCD completes with the greatest common divisor, for all A and B, a zero operand included. -/
def Obligations.GcdIsTheGreatestCommonDivisor : Prop :=
  ∀ (s : State) (rd rs1 rs2 : RegIdx),
    (encode (.gcd rd rs1 rs2)).toNat = 0x10 * 2 ^ 27 + rd.val * 2 ^ 24 + rs1.val * 2 ^ 21 + rs2.val * 2 ^ 18 ∧
    exec (.gcd rd rs1 rs2) s = .next (s.completedWith
      (s.x.set rd (BitVec.ofNat 2048 (Nat.gcd s.x[rs1].toNat s.x[rs2].toNat))) s.result
      { s.flags with done := true })

/-- R153: LCM completes with the least common multiple modulo 2^2048, 0 for a zero operand, and never raises DZ. -/
def Obligations.LcmIsTheLeastCommonMultipleWrapped : Prop :=
  ∀ (s : State) (rd rs1 rs2 : RegIdx),
    (encode (.lcm rd rs1 rs2)).toNat = 0x11 * 2 ^ 27 + rd.val * 2 ^ 24 + rs1.val * 2 ^ 21 + rs2.val * 2 ^ 18 ∧
    exec (.lcm rd rs1 rs2) s = .next (s.completedWith
      (s.x.set rd (BitVec.ofNat 2048 (Nat.lcm s.x[rs1].toNat s.x[rs2].toNat))) s.result
      { s.flags with done := true })

/-- R154, R155: BMU completes, for n of bit length k with 1 ≤ k ≤ 1023, with floor(2^(2k) / n); for n ≥ 2^1023 with 0
and no flag; for n = 0 with 0 and DZ. -/
def Obligations.BmuIsTheBarrettReciprocal : Prop :=
  ∀ (s : State) (rd rs1 : RegIdx),
    (encode (.bmu rd rs1)).toNat = 0x12 * 2 ^ 27 + rd.val * 2 ^ 24 + rs1.val * 2 ^ 21 ∧
    (∀ k : Nat, 1 ≤ k → k ≤ 1023 → 2 ^ (k - 1) ≤ s.x[rs1].toNat → s.x[rs1].toNat < 2 ^ k →
      exec (.bmu rd rs1) s = .next (s.completedWith
        (s.x.set rd (BitVec.ofNat 2048 (2 ^ (2 * k) / s.x[rs1].toNat))) s.result { s.flags with done := true })) ∧
    (2 ^ 1023 ≤ s.x[rs1].toNat → exec (.bmu rd rs1) s =
      .next (s.completedWith (s.x.set rd 0) s.result { s.flags with done := true })) ∧
    (s.x[rs1] = 0 → exec (.bmu rd rs1) s =
      .next (s.completedWith (s.x.set rd 0) s.result { s.flags with done := true, dz := true }))

/-- R157, R159: BRED completes, for every n that is not Zero and every μ, with x mod n; for n = 0 with 0 and DZ. -/
def Obligations.BredIsTheRemainderForEveryMu : Prop :=
  ∀ (s : State) (rd rs1 rs2 rs3 : RegIdx),
    (encode (.bred rd rs1 rs2 rs3)).toNat =
      0x13 * 2 ^ 27 + rd.val * 2 ^ 24 + rs1.val * 2 ^ 21 + rs2.val * 2 ^ 18 + rs3.val * 2 ^ 15 ∧
    (s.x[rs2] ≠ 0 → exec (.bred rd rs1 rs2 rs3) s = .next (s.completedWith
      (s.x.set rd (BitVec.ofNat 2048 (s.x[rs1].toNat % s.x[rs2].toNat))) s.result { s.flags with done := true })) ∧
    (s.x[rs2] = 0 → exec (.bred rd rs1 rs2 rs3) s =
      .next (s.completedWith (s.x.set rd 0) s.result { s.flags with done := true, dz := true }))

/-- R156: the two correction loops, run as the pseudocode has them with fuel enough, end in the value that the model
takes for Reduce, for every x, every μ and every n that is not Zero. That the model takes the remainder instead of
running the loops is its own choice (log entry 8). -/
def Obligations.CorrectionLoopsEndInTheReducedValue : Prop :=
  ∀ x n mu : FixedInt, n ≠ 0 → ∃ enough : Nat, ∀ fuel : Nat, enough ≤ fuel →
    reduceByLoops fuel x n mu = some ((fixReduce x n mu).value.toNat : Int)

/-- R159: with μ = BarrettMu(n), n of at most 1023 bits and x < n², the first correction loop subtracts at most twice
and the second never runs. This bound is the sentence of R159 that the spec marks as from general knowledge. -/
def Obligations.BarrettNeedsAtMostTwoSubtractions : Prop :=
  ∀ x n : FixedInt, n ≠ 0 → n.toNat < 2 ^ 1023 → x.toNat < n.toNat * n.toNat →
    ∃ r : Nat, r = x.toNat % n.toNat ∧
      correctDown n.toNat 3 ((x.toNat : Int) - (barrettProduct x n (barrettMu n).q).toNat) = some (r : Int)

/-- R160: POWMOD completes, for 1 ≤ n < 2^1024 and every A, B and μ, with A^B mod n. -/
def Obligations.PowmodIsExactWithinCapacity : Prop :=
  ∀ (s : State) (rd rs1 rs2 rs3 r4 : RegIdx), s.x[rs3] ≠ 0 → s.x[rs3].toNat < 2 ^ 1024 →
    exec (.powmod rd rs1 rs2 rs3 r4) s = .next (s.completedWith
      (s.x.set rd (BitVec.ofNat 2048 (s.x[rs1].toNat ^ s.x[rs2].toNat % s.x[rs3].toNat))) s.result
      { s.flags with done := true })

/-- R158: POWMOD for every modulus that is not Zero, with each product wrapped at 2^2048 before it is reduced, whatever
μ is; for n = 0 it completes with 0 and DZ. -/
def Obligations.PowmodForEveryModulus : Prop :=
  ∀ (s : State) (rd rs1 rs2 rs3 r4 : RegIdx) (a b n : Nat),
    a = s.x[rs1].toNat → b = s.x[rs2].toNat → n = s.x[rs3].toNat →
    (encode (.powmod rd rs1 rs2 rs3 r4)).toNat =
      0x14 * 2 ^ 27 + rd.val * 2 ^ 24 + rs1.val * 2 ^ 21 + rs2.val * 2 ^ 18 + rs3.val * 2 ^ 15 + r4.val * 2 ^ 12 ∧
    (n ≠ 0 → exec (.powmod rd rs1 rs2 rs3 r4) s = .next (s.completedWith
      (s.x.set rd (BitVec.ofNat 2048 ((List.range (bitLength s.x[rs2])).foldl
        (fun t i => (if b.testBit i then t.1 * t.2 % 2 ^ 2048 % n else t.1, t.2 * t.2 % 2 ^ 2048 % n))
        (1 % n, a % n)).1)) s.result { s.flags with done := true })) ∧
    (n = 0 → exec (.powmod rd rs1 rs2 rs3 r4) s =
      .next (s.completedWith (s.x.set rd 0) s.result { s.flags with done := true, dz := true }))

/-! ### Host-side contracts -/

/-- R111: the printed form of every value reads back as that value. -/
def Obligations.PrintedValueReadsBack : Prop :=
  ∀ a : FixedInt, fromHex (toHexText a) = some a

/-- R110: the six whitespace characters and the hyphen are removed wherever they stand, then one leading 0x or 0X; hex
digits of either case that remain stand for their number modulo 2^2048, none of them for Zero; and a text with any other
character there has no value. -/
def Obligations.FromHexReadsTheNumberWrapped : Prop :=
  (∀ c : Char, isHexFiller c = true ↔ c ∈ [' ', '\t', '\n', '\x0b', '\x0c', '\r', '-']) ∧
  (∀ (c : Char) (d : Nat), hexDigit? c = some d ↔
    "0123456789abcdef".toList[d]? = some c ∨ "0123456789ABCDEF".toList[d]? = some c) ∧
  ∀ text body : List Char,
    (text.filter (fun c => !isHexFiller c) = '0' :: 'x' :: body ∨
      text.filter (fun c => !isHexFiller c) = '0' :: 'X' :: body ∨
      (text.filter (fun c => !isHexFiller c) = body ∧ ∀ l : List Char, body ≠ '0' :: 'x' :: l ∧ body ≠ '0' :: 'X' :: l)) →
    (∀ ds : List Nat, body.map hexDigit? = ds.map some →
      fromHex text = some (BitVec.ofNat 2048 (ds.foldl (fun acc d => 16 * acc + d) 0))) ∧
    ((∃ c ∈ body, hexDigit? c = none) → fromHex text = none)

/-- R76, R77: the assembler text of every well-formed command assembles to it, and SQR rd, rs is MUL rd, rs, rs. The
details of the text that R76 leaves open are the model's (log entry 15). -/
def Obligations.AssemblerReadsItsOwnText : Prop :=
  (∀ i : Instr, i.wellFormed = true → assemble (asmText i) = some i) ∧
  (∀ rd rs : RegIdx,
    assemble (['S', 'Q', 'R', ' '] ++ regText rd ++ [',', ' '] ++ regText rs) = some (.mul rd rs rs))

/-- R112: a word list of at most 256 words becomes its words written to PB[0] onwards, then LDWL with its length; of a
longer one the 64 words of its value are written through the window. -/
def Obligations.WordListBecomesHostWrites : Prop :=
  ∀ (r : RegIdx) (l : List Word),
    (l.length ≤ 256 → ∃ ins : List Input,
      loadList r l = ins ++ [.write .word (hostAddress 0x008) (encode (.ldwl r (BitVec.ofNat 12 l.length)))] ∧
      ins.length = l.length ∧
      ∀ m : Nat, m < l.length → ins[m]? = some (.write .word (hostAddress (0x400 + 4 * m)) (l[m]?.getD 0))) ∧
    (256 < l.length → (loadList r l).length = 64 ∧
      ∀ j : Nat, j < 64 → (loadList r l)[j]? =
        some (.write .word (hostAddress (0x800 + 0x100 * r.val + 4 * j)) (wordOf (fromWordList l).value j)))
end

