-- ==== Sys2Proof/Laws/Arith.lean ====
section
/-! SUPPORT. Laws/Arith.lean: one lemma per arithmetic function saying what number it gives (R104 to R159). Each cites
the lemmas of the functions it is built from. -/

namespace Sys2Proof.Machine

/-! Layers 1 and 2 -/

/-- R106: the three outcomes of a comparison. -/
theorem fixCompare_eq_lt {a b : FixedInt} : fixCompare a b = .lt ↔ a.toNat < b.toNat := by
  simp only [fixCompare, BitVec.lt_def]
  split
  · simp [*]
  · split <;> simp [*]

theorem fixCompare_eq_gt {a b : FixedInt} : fixCompare a b = .gt ↔ b.toNat < a.toNat := by
  simp only [fixCompare, BitVec.lt_def]
  split
  · simp; omega
  · split
    · simp [*]
    · rename_i h₁ h₂
      have : a.toNat ≠ b.toNat := fun e => h₂ (BitVec.eq_of_toNat_eq e)
      simp; omega

theorem toNat_fixZero : (0 : FixedInt).toNat = 0 := BitVec.toNat_zero ..

theorem toNat_fixOne : (1 : FixedInt).toNat = 1 := BitVec.toNat_one (by decide)

theorem toNat_ne_zero {a : FixedInt} : a ≠ 0 ↔ a.toNat ≠ 0 := by
  rw [ne_eq, ne_eq, ← BitVec.toNat_inj, toNat_fixZero]

/-- R105: a difference that does not wrap. -/
theorem toNat_fixSub {a b : FixedInt} (h : b.toNat ≤ a.toNat) : (fixSub a b).toNat = a.toNat - b.toNat := by
  rw [fixSub, BitVec.toNat_sub_of_le (BitVec.le_def.mpr h)]

/-- R121: ShiftBitsUp as a number. -/
theorem toNat_shiftBitsUp (a : FixedInt) (n : Nat) : (shiftBitsUp a n).toNat = a.toNat * 2 ^ n % 2 ^ 2048 := by
  rw [shiftBitsUp, BitVec.toNat_shiftLeft, Nat.shiftLeft_eq]

/-- R122: ShiftBitsDown as a number. -/
theorem toNat_shiftBitsDown (a : FixedInt) (n : Nat) : (shiftBitsDown a n).toNat = a.toNat / 2 ^ n := by
  rw [shiftBitsDown, BitVec.toNat_ushiftRight, Nat.shiftRight_eq_div_pow]

/-- R123: BitLength is the least b with X < 2^b. -/
theorem bitLength_le_iff {a : FixedInt} {b : Nat} : bitLength a ≤ b ↔ a.toNat < 2 ^ b := by
  unfold bitLength
  split
  · rename_i h; subst h; simp
  · rename_i h
    rw [← Nat.log2_lt (toNat_ne_zero.mp h)]; omega

theorem lt_two_pow_bitLength (a : FixedInt) : a.toNat < 2 ^ bitLength a := bitLength_le_iff.mp (Nat.le_refl _)

theorem bitLength_le (a : FixedInt) : bitLength a ≤ 2048 := bitLength_le_iff.mpr a.isLt

/-- R123: the highest set bit. -/
theorem two_pow_le_of_ne_zero {a : FixedInt} (h : a.toNat ≠ 0) : 2 ^ (bitLength a - 1) ≤ a.toNat ∧ 1 ≤ bitLength a := by
  have h1 : 1 ≤ bitLength a := by
    by_contra hc
    have : bitLength a ≤ 0 := by omega
    have := bitLength_le_iff.mp this
    omega
  refine ⟨?_, h1⟩
  by_contra hc
  have := bitLength_le_iff.mpr (Nat.lt_of_not_le hc)
  omega

/-- R124: bit i as a number. -/
theorem fixGetBit_eq (a : FixedInt) (i : Nat) : fixGetBit a i = a.toNat.testBit i := rfl

/-! Layer 4: long division -/

/-- R141 (1) to (3): the C a pass subtracts is the largest B · 2^p with B · 2^p ≤ R, and it does not wrap. -/
theorem divPosition_spec {b r : FixedInt} (hb : b.toNat ≠ 0) (hr : b.toNat ≤ r.toNat) :
    b.toNat * 2 ^ divPosition b r ≤ r.toNat ∧ r.toNat < b.toNat * 2 ^ (divPosition b r + 1) := by
  have hbk := two_pow_le_of_ne_zero hb
  have hbl := lt_two_pow_bitLength b
  have hrt := two_pow_le_of_ne_zero (a := r) (by omega)
  have hrl := lt_two_pow_bitLength r
  have hkt : bitLength b ≤ bitLength r := bitLength_le_iff.mpr (Nat.lt_of_le_of_lt hr hrl)
  have htop := bitLength_le r
  obtain ⟨d, hd⟩ : ∃ d, bitLength r = bitLength b + d := ⟨bitLength r - bitLength b, by omega⟩
  have hc : (shiftBitsUp b d).toNat = b.toNat * 2 ^ d := by
    rw [toNat_shiftBitsUp]
    apply Nat.mod_eq_of_lt
    calc b.toNat * 2 ^ d < 2 ^ bitLength b * 2 ^ d := Nat.mul_lt_mul_of_pos_right hbl (Nat.two_pow_pos d)
      _ = 2 ^ bitLength r := by rw [hd, Nat.pow_add]
      _ ≤ 2 ^ 2048 := Nat.pow_le_pow_right (by decide) htop
  have hup : r.toNat < b.toNat * 2 ^ (d + 1) := by
    calc r.toNat < 2 ^ bitLength r := hrl
      _ = 2 ^ (bitLength b - 1) * 2 ^ (d + 1) := by rw [hd, ← Nat.pow_add]; congr 1; omega
      _ ≤ b.toNat * 2 ^ (d + 1) := Nat.mul_le_mul_right _ hbk.1
  simp only [divPosition]
  rw [show bitLength r - bitLength b = d by omega]
  split
  · rename_i hlt
    rw [fixCompare_eq_lt, hc] at hlt
    have hd0 : d ≠ 0 := by
      intro h0
      subst h0
      rw [Nat.pow_zero, Nat.mul_one] at hlt
      omega
    rw [show bitLength r - 1 - bitLength b = d - 1 by omega, show d - 1 + 1 = d by omega]
    refine ⟨?_, hlt⟩
    have h2 : b.toNat * 2 ^ (d - 1) ≤ 2 ^ (bitLength b + (d - 1)) := by
      rw [Nat.pow_add]; exact Nat.mul_le_mul_right _ (Nat.le_of_lt hbl)
    calc b.toNat * 2 ^ (d - 1) ≤ 2 ^ (bitLength b + (d - 1)) := h2
      _ = 2 ^ (bitLength r - 1) := by congr 1; omega
      _ ≤ r.toNat := hrt.1
  · rename_i hlt
    rw [fixCompare_eq_lt, hc] at hlt
    exact ⟨by omega, hup⟩

/-- R141: the loop keeps A = Q · B + R, subtracts at ever lower positions, and ends with R < B. -/
theorem divLoop_spec {b : FixedInt} (hb : b.toNat ≠ 0) (fuel : Nat) :
    ∀ (q r : FixedInt) (m : Nat), r.toNat < b.toNat * 2 ^ m → r.toNat < 2 ^ fuel → q.toNat % 2 ^ m = 0 →
      q.toNat * b.toNat + r.toNat < 2 ^ 2048 →
      (divLoop b fuel q r).1.toNat * b.toNat + (divLoop b fuel q r).2.toNat = q.toNat * b.toNat + r.toNat ∧
      (divLoop b fuel q r).2.toNat < b.toNat := by
  induction fuel with
  | zero =>
    intro q r m _ hr _ _
    rw [Nat.pow_zero] at hr
    exact ⟨rfl, by simp only [divLoop]; omega⟩
  | succ fuel ih =>
    intro q r m hm hfuel hq htot
    simp only [divLoop, fixCompare_eq_lt]
    split
    · rename_i h; exact ⟨rfl, h⟩
    · rename_i h
      have hle : b.toNat ≤ r.toNat := by omega
      obtain ⟨h1, h2⟩ := divPosition_spec hb hle
      rw [Nat.pow_succ, ← Nat.mul_assoc] at h2
      generalize divPosition b r = p at h1 h2 ⊢
      have hbpos : 0 < b.toNat := Nat.pos_of_ne_zero hb
      have hpm : p < m := by
        by_contra hc
        have : b.toNat * 2 ^ m ≤ b.toNat * 2 ^ p :=
          Nat.mul_le_mul_left _ (Nat.pow_le_pow_right (by decide) (by omega))
        omega
      have hc : (shiftBitsUp b p).toNat = b.toNat * 2 ^ p := by
        rw [toNat_shiftBitsUp]; exact Nat.mod_eq_of_lt (Nat.lt_of_le_of_lt h1 r.isLt)
      have h2p : 2 ^ p ≤ r.toNat :=
        Nat.le_trans (Nat.le_mul_of_pos_left _ hbpos) h1
      have h1p : (shiftBitsUp 1 p).toNat = 2 ^ p := by
        rw [toNat_shiftBitsUp, toNat_fixOne, Nat.one_mul]; exact Nat.mod_eq_of_lt (Nat.lt_of_le_of_lt h2p r.isLt)
      have hsub : (fixSub r (shiftBitsUp b p)).toNat = r.toNat - b.toNat * 2 ^ p := by
        rw [toNat_fixSub (by omega), hc]
      obtain ⟨w, hw⟩ : ∃ w, q.toNat = 2 ^ (p + 1) * w := by
        refine ⟨q.toNat / 2 ^ (p + 1), ?_⟩
        have : 2 ^ (p + 1) ∣ q.toNat :=
          Nat.dvd_trans (Nat.pow_dvd_pow 2 (by omega)) (Nat.dvd_of_mod_eq_zero hq)
        exact (Nat.mul_div_cancel' this).symm
      have hor : (q ||| shiftBitsUp 1 p).toNat = q.toNat + 2 ^ p := by
        rw [BitVec.toNat_or, h1p, hw, Nat.two_pow_add_eq_or_of_lt (Nat.pow_lt_pow_right (by decide) (by omega))]
      have hsum : (q.toNat + 2 ^ p) * b.toNat + (r.toNat - b.toNat * 2 ^ p) = q.toNat * b.toNat + r.toNat := by
        rw [Nat.add_mul, Nat.mul_comm (2 ^ p)]; omega
      have hstep := ih (q ||| shiftBitsUp 1 p) (fixSub r (shiftBitsUp b p)) p
        (by rw [hsub]; omega) (by rw [hsub]; rw [Nat.pow_succ] at hfuel; omega)
        (by rw [hor, hw, Nat.pow_succ, Nat.mul_assoc]; simp)
        (by rw [hor, hsub, hsum]; exact htot)
      rw [hor, hsub, hsum] at hstep
      exact hstep

/-- R141: DivMod is the exact floor quotient and remainder. -/
theorem divMod_spec (a : FixedInt) {b : FixedInt} (hb : b ≠ 0) :
    (divMod a b).q.toNat = a.toNat / b.toNat ∧ (divMod a b).r.toNat = a.toNat % b.toNat ∧
      (divMod a b).byZero = false := by
  have hb' := toNat_ne_zero.mp hb
  have h := divLoop_spec hb' (bitLength a) 0 a (bitLength a)
    (Nat.lt_of_lt_of_le (lt_two_pow_bitLength a) (Nat.le_mul_of_pos_left _ (Nat.pos_of_ne_zero hb')))
    (lt_two_pow_bitLength a) (by rw [toNat_fixZero]; exact Nat.zero_mod _)
    (by rw [toNat_fixZero, Nat.zero_mul, Nat.zero_add]; exact a.isLt)
  rw [toNat_fixZero, Nat.zero_mul, Nat.zero_add] at h
  simp only [divMod, if_neg hb]
  generalize divLoop b (bitLength a) 0 a = d at h
  have h3 := Nat.div_mod_unique (a := a.toNat) (b := b.toNat) (c := d.2.toNat) (d := d.1.toNat)
    (Nat.pos_of_ne_zero hb')
  have h4 := h3.mpr ⟨by rw [← h.1, Nat.mul_comm, Nat.add_comm], h.2⟩
  exact ⟨h4.1.symm, h4.2.symm, trivial⟩

/-- R140, R182: division by Zero. -/
theorem divMod_zero (a : FixedInt) : divMod a 0 = ⟨0, 0, true⟩ := if_pos rfl

end Sys2Proof.Machine
end

