-- ==== Sys2Proof/Laws/Encoding.lean ====
section
/-! SUPPORT. Laws/Encoding.lean: the fields of a word and the word of the fields are each other's inverse (R70), and the
number an encoded command is. -/

namespace Sys2Proof

/-- R70, read bit by bit: which field a bit of the word belongs to. -/
theorem Fields.getLsbD_toWord (f : Fields) (k : Nat) (hk : k < 32) : f.toWord.getLsbD k =
    if k < 12 then f.imm.getLsbD k else if k < 15 then f.r4.getLsbD (k - 12)
    else if k < 18 then f.rs3.getLsbD (k - 15) else if k < 21 then f.rs2.getLsbD (k - 18)
    else if k < 24 then f.rs1.getLsbD (k - 21) else if k < 27 then f.rd.getLsbD (k - 24)
    else f.op.getLsbD (k - 27) := by
  simp only [Fields.toWord, BitVec.getLsbD_setWidth, BitVec.getLsbD_append, hk, decide_true, Bool.true_and, Nat.sub_sub]
  repeat' split
  all_goals first | rfl | omega

@[simp] theorem Fields.ofWord_toWord (f : Fields) : Fields.ofWord f.toWord = f := by
  obtain ⟨op, rd, rs1, rs2, rs3, r4, imm⟩ := f
  simp only [Fields.ofWord, Fields.mk.injEq]
  refine ⟨?_, ?_, ?_, ?_, ?_, ?_, ?_⟩ <;>
  · apply BitVec.eq_of_getLsbD_eq
    intro k hk
    rw [BitVec.getLsbD_extractLsb', Fields.getLsbD_toWord _ _ (by omega)]
    simp only [hk, decide_true, Bool.true_and]
    repeat' split
    all_goals first | omega | (congr 1; omega)

@[simp] theorem Fields.toWord_ofWord (v : Word) : (Fields.ofWord v).toWord = v := by
  apply BitVec.eq_of_getLsbD_eq
  intro k hk
  rw [Fields.getLsbD_toWord _ _ hk]
  simp only [Fields.ofWord, BitVec.getLsbD_extractLsb']
  repeat' split
  all_goals (rw [decide_eq_true (by omega), Bool.true_and]; congr 1; omega)

/-- The number a word is, by its fields. -/
theorem Fields.toNat_toWord (f : Fields) : f.toWord.toNat =
    f.op.toNat * 2 ^ 27 + f.rd.toNat * 2 ^ 24 + f.rs1.toNat * 2 ^ 21 + f.rs2.toNat * 2 ^ 18 + f.rs3.toNat * 2 ^ 15 +
      f.r4.toNat * 2 ^ 12 + f.imm.toNat := by
  have h1 := f.op.isLt
  have h2 := f.rd.isLt
  have h3 := f.rs1.isLt
  have h4 := f.rs2.isLt
  have h5 := f.rs3.isLt
  have h6 := f.r4.isLt
  have h7 := f.imm.isLt
  simp only [Fields.toWord, BitVec.toNat_setWidth, BitVec.toNat_append, Nat.shiftLeft_eq, Nat.mul_comm _ (2 ^ 3),
    Nat.mul_comm _ (2 ^ 12)]
  rw [← Nat.two_pow_add_eq_or_of_lt h2, ← Nat.two_pow_add_eq_or_of_lt h3, ← Nat.two_pow_add_eq_or_of_lt h4,
    ← Nat.two_pow_add_eq_or_of_lt h5, ← Nat.two_pow_add_eq_or_of_lt h6, ← Nat.two_pow_add_eq_or_of_lt h7]
  omega

@[simp] theorem toNat_bitsOf (r : RegIdx) : (bitsOf r).toNat = r.val := rfl

@[simp] theorem regOf_bitsOf (r : RegIdx) : regOf (bitsOf r) = r := rfl

@[simp] theorem bitsOf_regOf (b : BitVec 3) : bitsOf (regOf b) = b := rfl

end Sys2Proof
end

