-- ==== Sys2Proof/Laws/Gcd.lean ====
section
/-! SUPPORT. Laws/Gcd.lean: Stein's algorithm gives the greatest common divisor (spec/44_modular.md R151). -/

namespace Sys2Proof.Machine

/-- R124: bit 0 is the parity. -/
theorem fixGetBit_zero (a : FixedInt) : fixGetBit a 0 = decide (a.toNat % 2 = 1) := by
  rw [fixGetBit_eq, Nat.testBit_zero]

/-- R151: halving an even operand takes one factor of 2 out and one bit off its length. -/
theorem halve_even {a : FixedInt} (h : fixGetBit a 0 = false) :
    a.toNat = 2 * (shiftBitsDown a 1).toNat ∧ bitLength (shiftBitsDown a 1) = bitLength a - 1 := by
  rw [fixGetBit_zero, decide_eq_false_iff_not] at h
  have h1 : a.toNat = 2 * (shiftBitsDown a 1).toNat := by rw [toNat_shiftBitsDown]; omega
  refine ⟨h1, Nat.le_antisymm ?_ ?_⟩
  · rw [bitLength_le_iff]
    have := lt_two_pow_bitLength a
    rcases hb : bitLength a with _ | n
    · rw [hb] at this; simp at this ⊢; omega
    · rw [hb, Nat.pow_succ] at this; simp only [Nat.add_sub_cancel]; omega
  · have := lt_two_pow_bitLength (shiftBitsDown a 1)
    have h2 : bitLength a ≤ bitLength (shiftBitsDown a 1) + 1 := by
      rw [bitLength_le_iff, Nat.pow_succ]; omega
    omega

/-- R151: stripping leaves an odd operand, a power of two taken out, and no more bits. -/
theorem stripTwos_spec (fuel : Nat) : ∀ a : FixedInt, a.toNat ≠ 0 → bitLength a ≤ fuel →
    ∃ e : Nat, a.toNat = 2 ^ e * (stripTwos fuel a).toNat ∧ (stripTwos fuel a).toNat % 2 = 1 ∧
      bitLength (stripTwos fuel a) + e = bitLength a := by
  induction fuel with
  | zero =>
    intro a ha hf
    have := bitLength_le_iff.mp hf
    omega
  | succ fuel ih =>
    intro a ha hf
    cases h : fixGetBit a 0 with
    | true =>
      refine ⟨0, ?_⟩
      simp only [stripTwos, h, cond_true, Nat.pow_zero, Nat.one_mul, Nat.add_zero, true_and, and_true]
      rw [fixGetBit_zero, decide_eq_true_iff] at h
      exact h
    | false =>
      obtain ⟨h1, h2⟩ := halve_even h
      have hpos := (two_pow_le_of_ne_zero ha).2
      obtain ⟨e, h3, h4, h5⟩ := ih (shiftBitsDown a 1) (by omega) (by omega)
      refine ⟨e + 1, ?_⟩
      simp only [stripTwos, h, cond_false]
      refine ⟨?_, h4, by omega⟩
      rw [h1]
      conv_lhs => rw [h3]
      rw [Nat.pow_succ, Nat.mul_comm (2 ^ e) 2, Nat.mul_assoc]

/-- R151: taking the common factors of 2 out of two operands leaves them not both even. -/
theorem stripCommon_spec (fuel : Nat) : ∀ (a b : FixedInt) (d : Nat), a.toNat ≠ 0 → b.toNat ≠ 0 →
    bitLength a ≤ fuel → ∃ e : Nat, (stripCommon fuel a b d).2.2 = d + e ∧
      a.toNat = 2 ^ e * (stripCommon fuel a b d).1.toNat ∧ b.toNat = 2 ^ e * (stripCommon fuel a b d).2.1.toNat ∧
      ((stripCommon fuel a b d).1.toNat % 2 = 1 ∨ (stripCommon fuel a b d).2.1.toNat % 2 = 1) := by
  induction fuel with
  | zero =>
    intro a b d ha _ hf
    have := bitLength_le_iff.mp hf
    omega
  | succ fuel ih =>
    intro a b d ha hb hf
    cases h : bothEven a b with
    | false =>
      refine ⟨0, ?_⟩
      simp only [stripCommon, h, cond_false, Nat.pow_zero, Nat.one_mul, Nat.add_zero, true_and]
      simpa [bothEven, fixGetBit_zero, or_iff_not_imp_left] using h
    | true =>
      simp only [bothEven, Bool.and_eq_true, Bool.not_eq_true'] at h
      obtain ⟨ha1, ha2⟩ := halve_even h.1
      obtain ⟨hb1, hb2⟩ := halve_even h.2
      have hpos := (two_pow_le_of_ne_zero ha).2
      obtain ⟨e, h1, h2, h3, h4⟩ :=
        ih (shiftBitsDown a 1) (shiftBitsDown b 1) (d + 1) (by omega) (by omega) (by omega)
      refine ⟨e + 1, ?_⟩
      simp only [stripCommon, bothEven, h.1, h.2, Bool.not_false, Bool.and_self, cond_true]
      refine ⟨by omega, ?_, ?_, h4⟩
      · rw [ha1]; conv_lhs => rw [h2]
        rw [Nat.pow_succ, Nat.mul_comm (2 ^ e) 2, Nat.mul_assoc]
      · rw [hb1]; conv_lhs => rw [h3]
        rw [Nat.pow_succ, Nat.mul_comm (2 ^ e) 2, Nat.mul_assoc]

/-- Factors of 2 do not matter to a gcd with an odd number. -/
theorem gcd_two_pow_mul_of_odd {x y : Nat} (e : Nat) (hy : y % 2 = 1) : Nat.gcd (2 ^ e * x) y = Nat.gcd x y := by
  have : Nat.Coprime (2 ^ e) y := Nat.Coprime.pow_left e (Nat.coprime_two_left.mpr (Nat.odd_iff.mpr hy))
  exact this.gcd_mul_left_cancel x

/-- Two numbers not both even, with their factors of 2 stripped, have the same gcd. -/
theorem gcd_of_stripped {a b x y e f : Nat} (ha : a = 2 ^ e * x) (hb : b = 2 ^ f * y) (hx : x % 2 = 1) (hy : y % 2 = 1)
    (h : a % 2 = 1 ∨ b % 2 = 1) : Nat.gcd a b = Nat.gcd x y := by
  rcases h with h | h
  · rw [Nat.gcd_comm, hb, gcd_two_pow_mul_of_odd f h, Nat.gcd_comm, ha, gcd_two_pow_mul_of_odd e hy]
  · rw [ha, gcd_two_pow_mul_of_odd e h, Nat.gcd_comm, hb, gcd_two_pow_mul_of_odd f hx, Nat.gcd_comm]

/-- R151: one pass, from operands not both even and not Zero: it goes on with an odd and an even operand, the gcd kept. -/
theorem gcdLoop_pass {a b : FixedInt} (ha : a.toNat ≠ 0) (hb : b.toNat ≠ 0) (hodd : a.toNat % 2 = 1 ∨ b.toNat % 2 = 1)
    (fuel : Nat) : ∃ c d : FixedInt, gcdLoop (fuel + 1) a b = gcdLoop fuel c d ∧ c.toNat % 2 = 1 ∧ d.toNat % 2 = 0 ∧
      Nat.gcd c.toNat d.toNat = Nat.gcd a.toNat b.toNat ∧
      bitLength c + bitLength d ≤ bitLength a + bitLength b - (if b.toNat % 2 = 0 then 1 else 0) := by
  obtain ⟨e, ha1, ha2, ha3⟩ := stripTwos_spec (bitLength a) a ha (Nat.le_refl _)
  obtain ⟨f, hb1, hb2, hb3⟩ := stripTwos_spec (bitLength b) b hb (Nat.le_refl _)
  have hgcd := gcd_of_stripped ha1 hb1 ha2 hb2 hodd
  have hf : b.toNat % 2 = 0 → 1 ≤ f := by
    intro h
    rcases f with _ | f
    · rw [Nat.pow_zero, Nat.one_mul] at hb1; omega
    · omega
  have hz : ¬(a = 0 ∨ b = 0) := by
    rw [not_or]; exact ⟨toNat_ne_zero.mpr ha, toNat_ne_zero.mpr hb⟩
  simp only [gcdLoop, if_neg hz]
  generalize stripTwos (bitLength a) a = x at ha1 ha2 ha3 hgcd ⊢
  generalize stripTwos (bitLength b) b = y at hb1 hb2 hb3 hgcd ⊢
  have hmono : ∀ p q : FixedInt, p.toNat ≤ q.toNat → bitLength p ≤ bitLength q := fun p q h =>
    bitLength_le_iff.mpr (Nat.lt_of_le_of_lt h (lt_two_pow_bitLength q))
  split
  · rename_i hgt
    rw [fixCompare_eq_gt] at hgt
    have hsub := toNat_fixSub (Nat.le_of_lt hgt)
    refine ⟨y, fixSub x y, rfl, hb2, by omega, ?_, ?_⟩
    · rw [hsub, Nat.gcd_sub_self_right (Nat.le_of_lt hgt), Nat.gcd_comm, hgcd]
    · have := hmono (fixSub x y) x (by omega)
      split <;> omega
  · rename_i hgt
    rw [fixCompare_eq_gt] at hgt
    have hsub := toNat_fixSub (Nat.le_of_not_lt hgt)
    refine ⟨x, fixSub y x, rfl, ha2, by omega, ?_, ?_⟩
    · rw [hsub, Nat.gcd_sub_self_right (Nat.le_of_not_lt hgt), hgcd]
    · have := hmono (fixSub y x) y (by omega)
      split <;> omega

/-- R151: from an odd and an even operand the loop ends with one operand Zero and the gcd in the other. -/
theorem gcdLoop_spec (fuel : Nat) : ∀ a b : FixedInt, a.toNat % 2 = 1 → b.toNat % 2 = 0 →
    bitLength a + bitLength b ≤ fuel →
    (if (gcdLoop fuel a b).1 ≠ 0 then (gcdLoop fuel a b).1 else (gcdLoop fuel a b).2).toNat =
      Nat.gcd a.toNat b.toNat := by
  induction fuel with
  | zero =>
    intro a b ha _ hf
    have := (two_pow_le_of_ne_zero (a := a) (by omega)).2
    omega
  | succ fuel ih =>
    intro a b ha hb hf
    by_cases hb0 : b.toNat = 0
    · have hbz : b = 0 := by
        by_contra h; exact toNat_ne_zero.mp h hb0
      have ha0 : a ≠ 0 := toNat_ne_zero.mpr (by omega)
      simp only [gcdLoop, hbz, or_true, if_true, ha0, ne_eq, not_false_eq_true, toNat_fixZero, Nat.gcd_zero_right]
    · obtain ⟨c, d, h1, h2, h3, h4, h5⟩ := gcdLoop_pass (by omega) hb0 (.inl ha) fuel
      have hbl := (two_pow_le_of_ne_zero hb0).2
      rw [if_pos hb] at h5
      rw [h1, ih c d h2 h3 (by omega), h4]

/-- R151: GCD(A, B) is the mathematical gcd, a zero operand included. -/
theorem toNat_fixGcd (a b : FixedInt) : (fixGcd a b).toNat = Nat.gcd a.toNat b.toNat := by
  unfold fixGcd
  split
  · rename_i h; subst h; rw [toNat_fixZero, Nat.gcd_zero_left]
  · rename_i ha
    split
    · rename_i h; subst h; rw [toNat_fixZero, Nat.gcd_zero_right]
    · rename_i hb
      have ha' := toNat_ne_zero.mp ha
      have hb' := toNat_ne_zero.mp hb
      obtain ⟨e, h1, h2, h3, h4⟩ := stripCommon_spec (bitLength a) a b 0 ha' hb' (Nat.le_refl _)
      simp only []
      generalize stripCommon (bitLength a) a b 0 = c at h1 h2 h3 h4 ⊢
      have hc1 : c.1.toNat ≠ 0 := by intro h; rw [h, Nat.mul_zero] at h2; exact ha' h2
      have hc2 : c.2.1.toNat ≠ 0 := by intro h; rw [h, Nat.mul_zero] at h3; exact hb' h3
      obtain ⟨p, q, h5, h6, h7, h8, h9⟩ := gcdLoop_pass hc1 hc2 h4 (bitLength a + bitLength b)
      have hle : ∀ u v : FixedInt, v.toNat = 2 ^ e * u.toNat → bitLength u ≤ bitLength v := fun u v h =>
        bitLength_le_iff.mpr (Nat.lt_of_le_of_lt (h ▸ Nat.le_mul_of_pos_left _ (Nat.two_pow_pos e))
          (lt_two_pow_bitLength v))
      have hl1 := hle _ _ h2
      have hl2 := hle _ _ h3
      have h10 := gcdLoop_spec (bitLength a + bitLength b) p q h6 h7 (by split at h9 <;> omega)
      rw [h5, toNat_shiftBitsUp, h10, h8, h1, Nat.zero_add, h2, h3, Nat.gcd_mul_left, Nat.mul_comm]
      apply Nat.mod_eq_of_lt
      calc 2 ^ e * Nat.gcd c.1.toNat c.2.1.toNat ≤ 2 ^ e * c.1.toNat :=
            Nat.mul_le_mul_left _ (Nat.gcd_le_left _ (Nat.pos_of_ne_zero hc1))
        _ < 2 ^ 2048 := h2 ▸ a.isLt

end Sys2Proof.Machine
end

