-- ==== Sys2Proof/Laws/Modular.lean ====
section
/-! SUPPORT. Laws/Modular.lean: what the functions of layer 5 give (spec/44_modular.md R150 to R160): each one lemma over
the lemmas of the functions it is built from. -/

namespace Sys2Proof.Machine

/-! Square-and-multiply -/

theorem toNat_fixMul (a b : FixedInt) : (fixMul a b).toNat = a.toNat * b.toNat % 2 ^ 2048 := BitVec.toNat_mul ..

/-- One bit of square-and-multiply on numbers, with `wrap` applied to each product. -/
def natPowStep (wrap : Nat → Nat) (b : Nat) (t : Nat × Nat) (i : Nat) : Nat × Nat :=
  (if b.testBit i then wrap (t.1 * t.2) else t.1, wrap (t.2 * t.2))

/-- Square-and-multiply over the low k bits of b gives a^(b mod 2^k) and a^(2^k), modulo m. -/
theorem natPowStep_foldl (a b m k : Nat) :
    (List.range k).foldl (natPowStep (· % m) b) (1 % m, a % m) = (a ^ (b % 2 ^ k) % m, a ^ 2 ^ k % m) := by
  induction k with
  | zero => simp [Nat.mod_one]
  | succ k ih =>
    rw [List.range_succ, List.foldl_append, ih]
    simp only [List.foldl_cons, List.foldl_nil, natPowStep, Prod.mk.injEq]
    have hsq : a ^ 2 ^ k % m * (a ^ 2 ^ k % m) % m = a ^ 2 ^ (k + 1) % m := by
      rw [← Nat.mul_mod, ← Nat.pow_add, Nat.pow_succ, Nat.mul_two]
    refine ⟨?_, hsq⟩
    have hbit := Nat.testBit_eq_decide_div_mod_eq (x := b) (i := k)
    rw [Nat.pow_succ, Nat.mod_mul]
    cases h : b.testBit k with
    | false =>
      rw [h, eq_comm, decide_eq_false_iff_not] at hbit
      simp [show b / 2 ^ k % 2 = 0 by omega]
    | true =>
      rw [h, eq_comm, decide_eq_true_iff] at hbit
      simp [hbit, Nat.pow_add]

/-- R150: the fold over values is the fold over numbers, each product wrapped at the capacity. -/
theorem powStep_foldl_toNat (b : FixedInt) (l : List Nat) (t : FixedInt × FixedInt) :
    ((l.foldl (powStep b) t).1.toNat, (l.foldl (powStep b) t).2.toNat) =
      l.foldl (natPowStep (· % 2 ^ 2048) b.toNat) (t.1.toNat, t.2.toNat) := by
  induction l generalizing t with
  | nil => rfl
  | cons i l ih =>
    rw [List.foldl_cons, List.foldl_cons, ih]
    congr 1
    have hb := fixGetBit_eq b i
    cases h : b.toNat.testBit i <;> rw [h] at hb <;> simp [powStep, natPowStep, hb, h, toNat_fixMul]

/-- R150: POW's function is the power modulo 2^2048. -/
theorem toNat_fixPow (a b : FixedInt) : (fixPow a b).toNat = a.toNat ^ b.toNat % 2 ^ 2048 := by
  have h := powStep_foldl_toNat b (List.range (bitLength b)) (1, a)
  have h1 : (1 : Nat) = 1 % 2 ^ 2048 := by
    rw [Nat.mod_eq_of_lt]
    exact Nat.one_lt_two_pow (n := 2048) (by omega)
  have ha : a.toNat = a.toNat % 2 ^ 2048 := (Nat.mod_eq_of_lt a.isLt).symm
  have h0 : ((1 : FixedInt).toNat, a.toNat) = (1 % 2 ^ 2048, a.toNat % 2 ^ 2048) := by
    rw [toNat_fixOne, ← h1, ← ha]
  rw [h0, natPowStep_foldl, Nat.mod_eq_of_lt (lt_two_pow_bitLength b)] at h
  exact congrArg Prod.fst h

/-! Barrett reduction -/

/-- R159: p = q3 · n does not wrap. -/
theorem toNat_barrettProduct (x n mu : FixedInt) : (barrettProduct x n mu).toNat =
    x.toNat / 2 ^ (bitLength n - 1) * mu.toNat % 2 ^ 2048 / 2 ^ (bitLength n + 1) * n.toNat := by
  simp only [barrettProduct, toNat_fixMul, toNat_shiftBitsDown]
  apply Nat.mod_eq_of_lt
  have hn := lt_two_pow_bitLength n
  have hq := Nat.mod_lt (x.toNat / 2 ^ (bitLength n - 1) * mu.toNat) (Nat.two_pow_pos 2048)
  generalize x.toNat / 2 ^ (bitLength n - 1) * mu.toNat % 2 ^ 2048 = q at hq ⊢
  calc q / 2 ^ (bitLength n + 1) * n.toNat
      ≤ q / 2 ^ (bitLength n + 1) * 2 ^ (bitLength n + 1) :=
        Nat.mul_le_mul_left _ (Nat.le_trans (Nat.le_of_lt hn) (Nat.pow_le_pow_right (by omega) (by omega)))
    _ ≤ q := Nat.div_mul_le_self ..
    _ < 2 ^ 2048 := hq

/-- R159: Reduce is the remainder by n, for every μ. -/
theorem fixReduce_spec (x mu : FixedInt) {n : FixedInt} (hn : n ≠ 0) :
    (fixReduce x n mu).value.toNat = x.toNat % n.toNat ∧ (fixReduce x n mu).byZero = false := by
  have hn' := toNat_ne_zero.mp hn
  simp only [fixReduce, if_neg hn, and_true]
  rw [toNat_barrettProduct]
  generalize x.toNat / 2 ^ (bitLength n - 1) * mu.toNat % 2 ^ 2048 / 2 ^ (bitLength n + 1) = q
  have h : ((x.toNat : Int) - ((q * n.toNat : Nat) : Int)) % (n.toNat : Int) = ((x.toNat % n.toNat : Nat) : Int) := by
    rw [Int.natCast_mul, Int.sub_mul_emod_self_right, Int.natCast_emod]
  rw [h, BitVec.ofInt_natCast, BitVec.toNat_ofNat]
  exact Nat.mod_eq_of_lt (Nat.lt_of_lt_of_le (Nat.mod_lt _ (Nat.pos_of_ne_zero hn')) (Nat.le_of_lt n.isLt))

theorem fixReduce_zero (x mu : FixedInt) : fixReduce x 0 mu = ⟨0, true⟩ := if_pos rfl

/-- R158: the fold over values is the fold over numbers, each product wrapped and then reduced, whatever μ is. -/
theorem powModStep_foldl_toNat (b mu : FixedInt) {n : FixedInt} (hn : n ≠ 0) (l : List Nat) (t : FixedInt × FixedInt) :
    ((l.foldl (powModStep b n mu) t).1.toNat, (l.foldl (powModStep b n mu) t).2.toNat) =
      l.foldl (natPowStep (· % 2 ^ 2048 % n.toNat) b.toNat) (t.1.toNat, t.2.toNat) := by
  induction l generalizing t with
  | nil => rfl
  | cons i l ih =>
    rw [List.foldl_cons, List.foldl_cons, ih]
    congr 1
    have hb := fixGetBit_eq b i
    cases h : b.toNat.testBit i <;> rw [h] at hb <;>
      simp [powModStep, natPowStep, hb, h, toNat_fixMul, (fixReduce_spec _ mu hn).1]

/-- R154: BarrettMu(n), the quotient of the wrapped power by n. -/
theorem toNat_barrettMu {n : FixedInt} (hn : n ≠ 0) :
    (barrettMu n).q.toNat = 2 ^ (2 * bitLength n) % 2 ^ 2048 / n.toNat ∧ (barrettMu n).byZero = false := by
  have h := divMod_spec (shiftBitsUp 1 (2 * bitLength n)) hn
  rw [toNat_shiftBitsUp, toNat_fixOne, Nat.one_mul] at h
  exact ⟨h.1, h.2.2⟩

theorem barrettMu_zero : barrettMu 0 = ⟨0, 0, true⟩ := divMod_zero _

end Sys2Proof.Machine
end

