-- ==== Sys2Proof/Laws/PerInstr.lean ====
section
/-! SUPPORT. Laws/PerInstr.lean: the family EncodesItsFields, one lemma per constructor of Instr: the word of a command
holds the fields R72 and R76 give it, no bit of one dropped or moved into another. -/

namespace Sys2Proof.Laws

/-- The word of a command has exactly the command's fields, an opcode of the map (R72), and the number they make. -/
def EncodesItsFields.Statement (i : Instr) : Prop :=
  Fields.ofWord (encode i) = encodeFields i ∧ 0x01 ≤ (encodeFields i).op.toNat ∧ (encodeFields i).op.toNat ≤ 0x14

theorem EncodesItsFields.clr (rd : RegIdx) : EncodesItsFields.Statement (.clr rd) :=
  ⟨Fields.ofWord_toWord _, by simp [encodeFields], by simp [encodeFields]⟩

theorem EncodesItsFields.mov (rd rs1 : RegIdx) : EncodesItsFields.Statement (.mov rd rs1) :=
  ⟨Fields.ofWord_toWord _, by simp [encodeFields], by simp [encodeFields]⟩

theorem EncodesItsFields.ldwl (rd : RegIdx) (len : Imm12) : EncodesItsFields.Statement (.ldwl rd len) :=
  ⟨Fields.ofWord_toWord _, by simp [encodeFields], by simp [encodeFields]⟩

theorem EncodesItsFields.add (rd rs1 rs2 : RegIdx) : EncodesItsFields.Statement (.add rd rs1 rs2) :=
  ⟨Fields.ofWord_toWord _, by simp [encodeFields], by simp [encodeFields]⟩

theorem EncodesItsFields.sub (rd rs1 rs2 : RegIdx) : EncodesItsFields.Statement (.sub rd rs1 rs2) :=
  ⟨Fields.ofWord_toWord _, by simp [encodeFields], by simp [encodeFields]⟩

theorem EncodesItsFields.cmp (rs1 rs2 : RegIdx) : EncodesItsFields.Statement (.cmp rs1 rs2) :=
  ⟨Fields.ofWord_toWord _, by simp [encodeFields], by simp [encodeFields]⟩

theorem EncodesItsFields.shlw (rd rs1 : RegIdx) (k : Imm12) : EncodesItsFields.Statement (.shlw rd rs1 k) :=
  ⟨Fields.ofWord_toWord _, by simp [encodeFields], by simp [encodeFields]⟩

theorem EncodesItsFields.shl (rd rs1 : RegIdx) (n : Imm12) : EncodesItsFields.Statement (.shl rd rs1 n) :=
  ⟨Fields.ofWord_toWord _, by simp [encodeFields], by simp [encodeFields]⟩

theorem EncodesItsFields.shr (rd rs1 : RegIdx) (n : Imm12) : EncodesItsFields.Statement (.shr rd rs1 n) :=
  ⟨Fields.ofWord_toWord _, by simp [encodeFields], by simp [encodeFields]⟩

theorem EncodesItsFields.bitlen (rs1 : RegIdx) : EncodesItsFields.Statement (.bitlen rs1) :=
  ⟨Fields.ofWord_toWord _, by simp [encodeFields], by simp [encodeFields]⟩

theorem EncodesItsFields.getbit (rs1 : RegIdx) (i : Imm12) : EncodesItsFields.Statement (.getbit rs1 i) :=
  ⟨Fields.ofWord_toWord _, by simp [encodeFields], by simp [encodeFields]⟩

theorem EncodesItsFields.mulw (rd rs1 rs2 : RegIdx) : EncodesItsFields.Statement (.mulw rd rs1 rs2) :=
  ⟨Fields.ofWord_toWord _, by simp [encodeFields], by simp [encodeFields]⟩

theorem EncodesItsFields.mul (rd rs1 rs2 : RegIdx) : EncodesItsFields.Statement (.mul rd rs1 rs2) :=
  ⟨Fields.ofWord_toWord _, by simp [encodeFields], by simp [encodeFields]⟩

theorem EncodesItsFields.divmod (rd r4 rs1 rs2 : RegIdx) : EncodesItsFields.Statement (.divmod rd r4 rs1 rs2) :=
  ⟨Fields.ofWord_toWord _, by simp [encodeFields], by simp [encodeFields]⟩

theorem EncodesItsFields.pow (rd rs1 rs2 : RegIdx) : EncodesItsFields.Statement (.pow rd rs1 rs2) :=
  ⟨Fields.ofWord_toWord _, by simp [encodeFields], by simp [encodeFields]⟩

theorem EncodesItsFields.gcd (rd rs1 rs2 : RegIdx) : EncodesItsFields.Statement (.gcd rd rs1 rs2) :=
  ⟨Fields.ofWord_toWord _, by simp [encodeFields], by simp [encodeFields]⟩

theorem EncodesItsFields.lcm (rd rs1 rs2 : RegIdx) : EncodesItsFields.Statement (.lcm rd rs1 rs2) :=
  ⟨Fields.ofWord_toWord _, by simp [encodeFields], by simp [encodeFields]⟩

theorem EncodesItsFields.bmu (rd rs1 : RegIdx) : EncodesItsFields.Statement (.bmu rd rs1) :=
  ⟨Fields.ofWord_toWord _, by simp [encodeFields], by simp [encodeFields]⟩

theorem EncodesItsFields.bred (rd rs1 rs2 rs3 : RegIdx) : EncodesItsFields.Statement (.bred rd rs1 rs2 rs3) :=
  ⟨Fields.ofWord_toWord _, by simp [encodeFields], by simp [encodeFields]⟩

theorem EncodesItsFields.powmod (rd rs1 rs2 rs3 r4 : RegIdx) : EncodesItsFields.Statement (.powmod rd rs1 rs2 rs3 r4) :=
  ⟨Fields.ofWord_toWord _, by simp [encodeFields], by simp [encodeFields]⟩

end Sys2Proof.Laws
end

