-- ==== Sys2Proof/Laws/State.lean ====
section
/-! SUPPORT. Laws/State.lean: what each operation over the machine leaves in each field of State, one lemma per field. -/

namespace Sys2Proof.Machine

variable (s : State)

/-! setReg -/
@[simp] theorem State.setReg_x (r : RegIdx) (v : FixedInt) : (s.setReg r v).x = s.x.set r.val v r.isLt := rfl
@[simp] theorem State.setReg_pb (r : RegIdx) (v : FixedInt) : (s.setReg r v).pb = s.pb := rfl
@[simp] theorem State.setReg_cmdLast (r : RegIdx) (v : FixedInt) : (s.setReg r v).cmdLast = s.cmdLast := rfl
@[simp] theorem State.setReg_flags (r : RegIdx) (v : FixedInt) : (s.setReg r v).flags = s.flags := rfl
@[simp] theorem State.setReg_result (r : RegIdx) (v : FixedInt) : (s.setReg r v).result = s.result := rfl
@[simp] theorem State.setReg_ie (r : RegIdx) (v : FixedInt) : (s.setReg r v).ie = s.ie := rfl
@[simp] theorem State.setReg_busy (r : RegIdx) (v : FixedInt) : (s.setReg r v).busy = s.busy := rfl
@[simp] theorem State.setReg_pending (r : RegIdx) (v : FixedInt) : (s.setReg r v).pending = s.pending := rfl
@[simp] theorem State.setReg_inputs (r : RegIdx) (v : FixedInt) : (s.setReg r v).inputs = s.inputs := rfl
@[simp] theorem State.setReg_readData (r : RegIdx) (v : FixedInt) : (s.setReg r v).readData = s.readData := rfl

/-! raise -/
@[simp] theorem State.raise_x (c : Condition) : (s.raise c).x = s.x := rfl
@[simp] theorem State.raise_pb (c : Condition) : (s.raise c).pb = s.pb := rfl
@[simp] theorem State.raise_cmdLast (c : Condition) : (s.raise c).cmdLast = s.cmdLast := rfl
@[simp] theorem State.raise_flags (c : Condition) : (s.raise c).flags = s.flags.set c := rfl
@[simp] theorem State.raise_result (c : Condition) : (s.raise c).result = s.result := rfl
@[simp] theorem State.raise_ie (c : Condition) : (s.raise c).ie = s.ie := rfl
@[simp] theorem State.raise_busy (c : Condition) : (s.raise c).busy = s.busy := rfl
@[simp] theorem State.raise_pending (c : Condition) : (s.raise c).pending = s.pending := rfl
@[simp] theorem State.raise_inputs (c : Condition) : (s.raise c).inputs = s.inputs := rfl
@[simp] theorem State.raise_readData (c : Condition) : (s.raise c).readData = s.readData := rfl

/-! clearFlags -/
@[simp] theorem State.clearFlags_x (w : Word) : (s.clearFlags w).x = s.x := rfl
@[simp] theorem State.clearFlags_pb (w : Word) : (s.clearFlags w).pb = s.pb := rfl
@[simp] theorem State.clearFlags_cmdLast (w : Word) : (s.clearFlags w).cmdLast = s.cmdLast := rfl
@[simp] theorem State.clearFlags_flags (w : Word) : (s.clearFlags w).flags = s.flags.clear w := rfl
@[simp] theorem State.clearFlags_result (w : Word) : (s.clearFlags w).result = s.result := rfl
@[simp] theorem State.clearFlags_ie (w : Word) : (s.clearFlags w).ie = s.ie := rfl
@[simp] theorem State.clearFlags_busy (w : Word) : (s.clearFlags w).busy = s.busy := rfl
@[simp] theorem State.clearFlags_pending (w : Word) : (s.clearFlags w).pending = s.pending := rfl
@[simp] theorem State.clearFlags_inputs (w : Word) : (s.clearFlags w).inputs = s.inputs := rfl
@[simp] theorem State.clearFlags_readData (w : Word) : (s.clearFlags w).readData = s.readData := rfl

/-! setDone -/
@[simp] theorem State.setDone_x : (s.setDone).x = s.x := rfl
@[simp] theorem State.setDone_pb : (s.setDone).pb = s.pb := rfl
@[simp] theorem State.setDone_cmdLast : (s.setDone).cmdLast = s.cmdLast := rfl
@[simp] theorem State.setDone_flags : (s.setDone).flags = { s.flags with done := true } := rfl
@[simp] theorem State.setDone_result : (s.setDone).result = s.result := rfl
@[simp] theorem State.setDone_ie : (s.setDone).ie = s.ie := rfl
@[simp] theorem State.setDone_busy : (s.setDone).busy = s.busy := rfl
@[simp] theorem State.setDone_pending : (s.setDone).pending = s.pending := rfl
@[simp] theorem State.setDone_inputs : (s.setDone).inputs = s.inputs := rfl
@[simp] theorem State.setDone_readData : (s.setDone).readData = s.readData := rfl

/-! setResult -/
@[simp] theorem State.setResult_x (v : Word) : (s.setResult v).x = s.x := rfl
@[simp] theorem State.setResult_pb (v : Word) : (s.setResult v).pb = s.pb := rfl
@[simp] theorem State.setResult_cmdLast (v : Word) : (s.setResult v).cmdLast = s.cmdLast := rfl
@[simp] theorem State.setResult_flags (v : Word) : (s.setResult v).flags = s.flags := rfl
@[simp] theorem State.setResult_result (v : Word) : (s.setResult v).result = v := rfl
@[simp] theorem State.setResult_ie (v : Word) : (s.setResult v).ie = s.ie := rfl
@[simp] theorem State.setResult_busy (v : Word) : (s.setResult v).busy = s.busy := rfl
@[simp] theorem State.setResult_pending (v : Word) : (s.setResult v).pending = s.pending := rfl
@[simp] theorem State.setResult_inputs (v : Word) : (s.setResult v).inputs = s.inputs := rfl
@[simp] theorem State.setResult_readData (v : Word) : (s.setResult v).readData = s.readData := rfl

/-! setIe -/
@[simp] theorem State.setIe_x (w : Word) : (s.setIe w).x = s.x := rfl
@[simp] theorem State.setIe_pb (w : Word) : (s.setIe w).pb = s.pb := rfl
@[simp] theorem State.setIe_cmdLast (w : Word) : (s.setIe w).cmdLast = s.cmdLast := rfl
@[simp] theorem State.setIe_flags (w : Word) : (s.setIe w).flags = s.flags := rfl
@[simp] theorem State.setIe_result (w : Word) : (s.setIe w).result = s.result := rfl
@[simp] theorem State.setIe_ie (w : Word) : (s.setIe w).ie = InterruptEnable.ofWord w := rfl
@[simp] theorem State.setIe_busy (w : Word) : (s.setIe w).busy = s.busy := rfl
@[simp] theorem State.setIe_pending (w : Word) : (s.setIe w).pending = s.pending := rfl
@[simp] theorem State.setIe_inputs (w : Word) : (s.setIe w).inputs = s.inputs := rfl
@[simp] theorem State.setIe_readData (w : Word) : (s.setIe w).readData = s.readData := rfl

/-! setPair -/
@[simp] theorem State.setPair_x (m : Fin 256) (v : Word) : (s.setPair m v).x = s.x := rfl
@[simp] theorem State.setPair_pb (m : Fin 256) (v : Word) : (s.setPair m v).pb = s.pb.set m.val v m.isLt := rfl
@[simp] theorem State.setPair_cmdLast (m : Fin 256) (v : Word) : (s.setPair m v).cmdLast = s.cmdLast := rfl
@[simp] theorem State.setPair_flags (m : Fin 256) (v : Word) : (s.setPair m v).flags = s.flags := rfl
@[simp] theorem State.setPair_result (m : Fin 256) (v : Word) : (s.setPair m v).result = s.result := rfl
@[simp] theorem State.setPair_ie (m : Fin 256) (v : Word) : (s.setPair m v).ie = s.ie := rfl
@[simp] theorem State.setPair_busy (m : Fin 256) (v : Word) : (s.setPair m v).busy = s.busy := rfl
@[simp] theorem State.setPair_pending (m : Fin 256) (v : Word) : (s.setPair m v).pending = s.pending := rfl
@[simp] theorem State.setPair_inputs (m : Fin 256) (v : Word) : (s.setPair m v).inputs = s.inputs := rfl
@[simp] theorem State.setPair_readData (m : Fin 256) (v : Word) : (s.setPair m v).readData = s.readData := rfl

/-! setRegWord -/
@[simp] theorem State.setRegWord_x (r : RegIdx) (j : Fin 64) (v : Word) : (s.setRegWord r j v).x = s.x.set r.val (setWord s.x[r] j.val v) r.isLt := rfl
@[simp] theorem State.setRegWord_pb (r : RegIdx) (j : Fin 64) (v : Word) : (s.setRegWord r j v).pb = s.pb := rfl
@[simp] theorem State.setRegWord_cmdLast (r : RegIdx) (j : Fin 64) (v : Word) : (s.setRegWord r j v).cmdLast = s.cmdLast := rfl
@[simp] theorem State.setRegWord_flags (r : RegIdx) (j : Fin 64) (v : Word) : (s.setRegWord r j v).flags = s.flags := rfl
@[simp] theorem State.setRegWord_result (r : RegIdx) (j : Fin 64) (v : Word) : (s.setRegWord r j v).result = s.result := rfl
@[simp] theorem State.setRegWord_ie (r : RegIdx) (j : Fin 64) (v : Word) : (s.setRegWord r j v).ie = s.ie := rfl
@[simp] theorem State.setRegWord_busy (r : RegIdx) (j : Fin 64) (v : Word) : (s.setRegWord r j v).busy = s.busy := rfl
@[simp] theorem State.setRegWord_pending (r : RegIdx) (j : Fin 64) (v : Word) : (s.setRegWord r j v).pending = s.pending := rfl
@[simp] theorem State.setRegWord_inputs (r : RegIdx) (j : Fin 64) (v : Word) : (s.setRegWord r j v).inputs = s.inputs := rfl
@[simp] theorem State.setRegWord_readData (r : RegIdx) (j : Fin 64) (v : Word) : (s.setRegWord r j v).readData = s.readData := rfl

/-! complete -/
@[simp] theorem State.complete_x : (s.complete).x = s.x := rfl
@[simp] theorem State.complete_pb : (s.complete).pb = s.pb := rfl
@[simp] theorem State.complete_cmdLast : (s.complete).cmdLast = s.cmdLast := rfl
@[simp] theorem State.complete_flags : (s.complete).flags = { s.flags with done := true } := rfl
@[simp] theorem State.complete_result : (s.complete).result = s.result := rfl
@[simp] theorem State.complete_ie : (s.complete).ie = s.ie := rfl
@[simp] theorem State.complete_busy : (s.complete).busy = false := rfl
@[simp] theorem State.complete_pending : (s.complete).pending = s.pending := rfl
@[simp] theorem State.complete_inputs : (s.complete).inputs = s.inputs := rfl
@[simp] theorem State.complete_readData : (s.complete).readData = s.readData := rfl

/-! accept -/
@[simp] theorem State.accept_x (v : Word) : (s.accept v).x = s.x := rfl
@[simp] theorem State.accept_pb (v : Word) : (s.accept v).pb = s.pb := rfl
@[simp] theorem State.accept_cmdLast (v : Word) : (s.accept v).cmdLast = v := rfl
@[simp] theorem State.accept_flags (v : Word) : (s.accept v).flags = s.flags := rfl
@[simp] theorem State.accept_result (v : Word) : (s.accept v).result = s.result := rfl
@[simp] theorem State.accept_ie (v : Word) : (s.accept v).ie = s.ie := rfl
@[simp] theorem State.accept_busy (v : Word) : (s.accept v).busy = true := rfl
@[simp] theorem State.accept_pending (v : Word) : (s.accept v).pending = v := rfl
@[simp] theorem State.accept_inputs (v : Word) : (s.accept v).inputs = s.inputs := rfl
@[simp] theorem State.accept_readData (v : Word) : (s.accept v).readData = s.readData := rfl

/-! rejectIllegal -/
@[simp] theorem State.rejectIllegal_x (v : Word) : (s.rejectIllegal v).x = s.x := rfl
@[simp] theorem State.rejectIllegal_pb (v : Word) : (s.rejectIllegal v).pb = s.pb := rfl
@[simp] theorem State.rejectIllegal_cmdLast (v : Word) : (s.rejectIllegal v).cmdLast = v := rfl
@[simp] theorem State.rejectIllegal_flags (v : Word) : (s.rejectIllegal v).flags = { s.flags with ill := true, done := true } := rfl
@[simp] theorem State.rejectIllegal_result (v : Word) : (s.rejectIllegal v).result = s.result := rfl
@[simp] theorem State.rejectIllegal_ie (v : Word) : (s.rejectIllegal v).ie = s.ie := rfl
@[simp] theorem State.rejectIllegal_busy (v : Word) : (s.rejectIllegal v).busy = s.busy := rfl
@[simp] theorem State.rejectIllegal_pending (v : Word) : (s.rejectIllegal v).pending = s.pending := rfl
@[simp] theorem State.rejectIllegal_inputs (v : Word) : (s.rejectIllegal v).inputs = s.inputs := rfl
@[simp] theorem State.rejectIllegal_readData (v : Word) : (s.rejectIllegal v).readData = s.readData := rfl

/-! raiseIf -/
@[simp] theorem State.raiseIf_x (b : Bool) (c : Condition) : (s.raiseIf b c).x = s.x := by
  cases b <;> rfl
@[simp] theorem State.raiseIf_pb (b : Bool) (c : Condition) : (s.raiseIf b c).pb = s.pb := by
  cases b <;> rfl
@[simp] theorem State.raiseIf_cmdLast (b : Bool) (c : Condition) : (s.raiseIf b c).cmdLast = s.cmdLast := by
  cases b <;> rfl
@[simp] theorem State.raiseIf_flags (b : Bool) (c : Condition) : (s.raiseIf b c).flags = bif b then s.flags.set c else s.flags := by
  cases b <;> rfl
@[simp] theorem State.raiseIf_result (b : Bool) (c : Condition) : (s.raiseIf b c).result = s.result := by
  cases b <;> rfl
@[simp] theorem State.raiseIf_ie (b : Bool) (c : Condition) : (s.raiseIf b c).ie = s.ie := by
  cases b <;> rfl
@[simp] theorem State.raiseIf_busy (b : Bool) (c : Condition) : (s.raiseIf b c).busy = s.busy := by
  cases b <;> rfl
@[simp] theorem State.raiseIf_pending (b : Bool) (c : Condition) : (s.raiseIf b c).pending = s.pending := by
  cases b <;> rfl
@[simp] theorem State.raiseIf_inputs (b : Bool) (c : Condition) : (s.raiseIf b c).inputs = s.inputs := by
  cases b <;> rfl
@[simp] theorem State.raiseIf_readData (b : Bool) (c : Condition) : (s.raiseIf b c).readData = s.readData := by
  cases b <;> rfl

/-! resetBlock -/
@[simp] theorem State.resetBlock_x : s.resetBlock.x = State.reset.x := rfl
@[simp] theorem State.resetBlock_pb : s.resetBlock.pb = State.reset.pb := rfl
@[simp] theorem State.resetBlock_cmdLast : s.resetBlock.cmdLast = State.reset.cmdLast := rfl
@[simp] theorem State.resetBlock_flags : s.resetBlock.flags = State.reset.flags := rfl
@[simp] theorem State.resetBlock_result : s.resetBlock.result = State.reset.result := rfl
@[simp] theorem State.resetBlock_ie : s.resetBlock.ie = State.reset.ie := rfl
@[simp] theorem State.resetBlock_busy : s.resetBlock.busy = State.reset.busy := rfl
@[simp] theorem State.resetBlock_pending : s.resetBlock.pending = State.reset.pending := rfl
@[simp] theorem State.resetBlock_inputs : s.resetBlock.inputs = s.inputs := rfl
@[simp] theorem State.resetBlock_readData : s.resetBlock.readData = s.readData := rfl

/-! the operand registers -/
@[simp] theorem State.reg_setReg_self (r : RegIdx) (v : FixedInt) : (s.setReg r v).reg r = v := by
  simp [State.reg]

theorem State.reg_setReg_of_ne {r q : RegIdx} (h : q ≠ r) (v : FixedInt) : (s.setReg r v).reg q = s.reg q := by
  have : r.val ≠ q.val := fun e => h (Fin.ext e.symm)
  simp [State.reg, Vector.getElem_set_ne, this]

/-- Two states are equal when their fields are. -/
theorem State.ext_fields {s t : State} (hx : s.x = t.x) (hpb : s.pb = t.pb) (hc : s.cmdLast = t.cmdLast)
    (hf : s.flags = t.flags) (hr : s.result = t.result) (hi : s.ie = t.ie) (hb : s.busy = t.busy)
    (hp : s.pending = t.pending) (hin : s.inputs = t.inputs) (hd : s.readData = t.readData) : s = t := by
  cases s; cases t; simp_all

end Sys2Proof.Machine
end

