-- ==== Sys2Proof/Laws/Port.lean ====
section
/-! SUPPORT. Laws/Port.lean: the address map, the two host transactions and the step, each said once, so that a proof
cites a case list instead of unfolding them. -/

namespace Sys2Proof.Machine

/-- R50: the offset of a host address inside the window, wherever BASE is. -/
@[simp] theorem offsetOf_hostAddress {off : Nat} (h : off < 4096) : offsetOf (hostAddress off) = off := by
  simp only [offsetOf, hostAddress, Config.base, Config.window]
  omega

theorem offsetOf_lt (addr : Nat) : offsetOf addr < 4096 := Nat.mod_lt _ (by decide)

/-- R51: the map from 0x400 on. -/
theorem placeOf_pair {off : Nat} (h₁ : 0x400 ≤ off) (h₂ : off < 0x800) :
    placeOf off = .pair (Fin.ofNat 256 ((off - 0x400) / 4)) := by
  unfold placeOf
  split
  all_goals first | omega | skip
  rw [if_neg (by omega), if_pos h₂]

theorem placeOf_window {off : Nat} (h : 0x800 ≤ off) :
    placeOf off = .window (Fin.ofNat 8 ((off - 0x800) / 0x100)) (Fin.ofNat 64 (off % 0x100 / 4)) := by
  unfold placeOf
  split
  all_goals first | omega | skip
  rw [if_neg (by omega), if_neg (by omega)]

theorem placeOf_reserved {off : Nat} (h₁ : 0x018 ≤ off) (h₂ : off < 0x400) : placeOf off = .reserved := by
  unfold placeOf
  split
  all_goals first | omega | skip
  rw [if_pos h₂]

/-- R51: the map inverts the offsets of R53 and R54. -/
@[simp] theorem placeOf_windowOffset (r : RegIdx) (j : Fin 64) : placeOf (windowOffset r j) = .window r j := by
  have hr := r.isLt
  have hj := j.isLt
  rw [placeOf_window (by simp only [windowOffset]; omega)]
  congr 1 <;> (apply Fin.ext; simp only [windowOffset, Fin.val_ofNat]; omega)

@[simp] theorem placeOf_pairOffset (m : Fin 256) : placeOf (pairOffset m) = .pair m := by
  have hm := m.isLt
  rw [placeOf_pair (by simp only [pairOffset]; omega) (by simp only [pairOffset]; omega)]
  congr 1
  apply Fin.ext
  simp only [pairOffset, Fin.val_ofNat]
  omega

/-- R52, R55: a read is served or refused, and what either does. -/
theorem State.hostRead_cases (s : State) (w : AccessWidth) (addr : Nat) :
    (s.serves w addr = true ∧
      s.hostRead w addr = { s with readData := s.readPlace (placeOf (offsetOf addr)) }) ∨
    (s.serves w addr = false ∧ s.hostRead w addr = { s.raise .badAccess with readData := 0 }) := by
  cases h : s.serves w addr <;> simp [State.hostRead, h]

/-- R52, R55: a write is served or refused, and what either does. -/
theorem State.hostWrite_cases (s : State) (w : AccessWidth) (addr : Nat) (v : Word) :
    (s.serves w addr = true ∧ s.hostWrite w addr v = s.writePlace v (placeOf (offsetOf addr))) ∨
    (s.serves w addr = false ∧ s.hostWrite w addr v = s.raise .badAccess) := by
  cases h : s.serves w addr <;> simp [State.hostWrite, h]

/-- R52, R55: a served access is a whole word, and in the window or the pair buffer only while idle. -/
theorem State.serves_iff (s : State) (w : AccessWidth) (addr : Nat) : s.serves w addr = true ↔
    w = .word ∧ offsetOf addr % 4 = 0 ∧ (s.busy = true → offsetOf addr < 0x400) := by
  cases w <;> cases hb : s.busy <;> simp [State.serves, wholeWord, State.closed, hb]

/-- R32: what a CMD write does, by cases. -/
theorem State.issue_cases (s : State) (v : Word) :
    (s.busy = true ∧ s.issue v = s.raise .overrun) ∨
    (s.busy = false ∧ legal v = true ∧ s.issue v = s.accept v) ∨
    (s.busy = false ∧ legal v = false ∧ s.issue v = s.rejectIllegal v) := by
  cases hb : s.busy <;> cases hl : legal v <;> simp [State.issue, hb, hl]

/-- R59: a host read leaves the operands, the pending command and the inputs alone. -/
theorem State.hostRead_frame (s : State) (w : AccessWidth) (addr : Nat) :
    (s.hostRead w addr).busy = s.busy ∧ (s.hostRead w addr).pending = s.pending ∧ (s.hostRead w addr).x = s.x ∧
      (s.hostRead w addr).pb = s.pb ∧ (s.hostRead w addr).inputs = s.inputs := by
  cases hs : s.serves w addr <;> simp [State.hostRead, hs]

/-- R55, R186: while busy, a host write leaves the operands, the pending command and the inputs alone. -/
theorem State.hostWrite_frame_of_busy {s : State} (hb : s.busy = true) (w : AccessWidth) (addr : Nat) (v : Word) :
    (s.hostWrite w addr v).busy = true ∧ (s.hostWrite w addr v).pending = s.pending ∧ (s.hostWrite w addr v).x = s.x ∧
      (s.hostWrite w addr v).pb = s.pb ∧ (s.hostWrite w addr v).inputs = s.inputs := by
  cases hs : s.serves w addr with
  | false => simp [State.hostWrite, hs, hb]
  | true =>
    have hlow : offsetOf addr < 0x400 := by
      simp [State.serves, State.closed, hb] at hs
      omega
    simp only [State.hostWrite, hs, cond_true]
    generalize hp : placeOf (offsetOf addr) = p
    cases p with
    | pair m =>
      unfold placeOf at hp
      split at hp <;> simp at hp
      rw [if_pos hlow] at hp
      cases hp
    | window r j =>
      unfold placeOf at hp
      split at hp <;> simp at hp
      rw [if_pos hlow] at hp
      cases hp
    | cmd => simp [State.writePlace, State.issue, hb]
    | _ => simp [State.writePlace, hb]

/-- R60, R207: a step is one of five events. -/
theorem step_cases (s : State) :
    (s.inputs = [] ∧ step s = engineTurn s) ∨
    (∃ w addr rest, s.inputs = .read w addr :: rest ∧
      step s = .next (State.hostRead { s with inputs := rest } w addr)) ∨
    (∃ w addr v rest, s.inputs = .write w addr v :: rest ∧
      step s = .next (State.hostWrite { s with inputs := rest } w addr v)) ∨
    (∃ rest, s.inputs = .engine :: rest ∧ step s = engineTurn { s with inputs := rest }) ∨
    (∃ rest, s.inputs = .reset :: rest ∧ step s = .next (State.resetBlock { s with inputs := rest })) := by
  rcases h : s.inputs with _ | ⟨i, rest⟩
  · exact .inl ⟨rfl, by simp [step, h]⟩
  · cases i with
    | read w addr => exact .inr (.inl ⟨w, addr, rest, rfl, by simp [step, h, takeInput]⟩)
    | write w addr v => exact .inr (.inr (.inl ⟨w, addr, v, rest, rfl, by simp [step, h, takeInput]⟩))
    | engine => exact .inr (.inr (.inr (.inl ⟨rest, rfl, by simp [step, h, takeInput]⟩)))
    | reset => exact .inr (.inr (.inr (.inr ⟨rest, rfl, by simp [step, h, takeInput]⟩)))

/-- R32: the engine's turn, by cases. -/
theorem engineTurn_cases (s : State) :
    (s.busy = false ∧ engineTurn s = .next s) ∨
    (s.busy = true ∧ ∃ i, decode? s.pending = some i ∧ engineTurn s = exec i s) ∨
    (s.busy = true ∧ decode? s.pending = none ∧ engineTurn s = .fault .pendingNotLegal) := by
  cases hb : s.busy with
  | false => exact .inl ⟨rfl, by simp [engineTurn, hb]⟩
  | true =>
    cases hd : decode? s.pending with
    | none => exact .inr (.inr ⟨rfl, rfl, by simp [engineTurn, hb, hd]⟩)
    | some i => exact .inr (.inl ⟨rfl, i, rfl, by simp [engineTurn, hb, hd]⟩)

/-- R74: decode? is decode without the reason. -/
theorem decode?_eq_some {v : Word} {i : Instr} : decode? v = some i ↔ decode v = .ok i := by
  simp only [decode?]
  cases decode v <;> simp

end Sys2Proof.Machine
end

