-- ==== Sys2Proof/Laws/Words.lean ====
section
/-! SUPPORT. Laws/Words.lean: the words of a value: reading one, replacing one, and putting a value together from its
words (R8, R53). -/

namespace Sys2Proof.Machine

/-- R8: word j as a number. -/
theorem toNat_wordOf (a : FixedInt) (j : Nat) : (wordOf a j).toNat = a.toNat / 2 ^ (32 * j) % 2 ^ 32 := by
  rw [wordOf, BitVec.extractLsb'_toNat, Nat.shiftRight_eq_div_pow]

/-- R8: bit b of word j is bit 32 j + b of the value. -/
theorem getLsbD_wordOf (a : FixedInt) (j b : Nat) :
    (wordOf a j).getLsbD b = (decide (b < 32) && a.getLsbD (32 * j + b)) := by
  rw [wordOf, BitVec.getLsbD_extractLsb']

/-- R53: the bits of a value with word j replaced. -/
theorem getLsbD_setWord (a : FixedInt) (j : Nat) (v : Word) {b : Nat} (h : b < 2048) :
    (setWord a j v).getLsbD b = if 32 * j ≤ b ∧ b < 32 * j + 32 then v.getLsbD (b - 32 * j) else a.getLsbD b := by
  have hones : ∀ m : Nat, (0xFFFFFFFF#2048).getLsbD m = decide (m < 32) := by
    intro m
    rw [BitVec.getLsbD_ofNat, show (0xFFFFFFFF : Nat) = 2 ^ 32 - 1 from rfl, Nat.testBit_two_pow_sub_one]
    by_cases hm : m < 32
    · simp [hm]; omega
    · simp [hm]
  simp only [setWord, BitVec.getLsbD_or, BitVec.getLsbD_and, BitVec.getLsbD_not, BitVec.getLsbD_shiftLeft, hones,
    BitVec.getLsbD_setWidth, h, decide_true, Bool.true_and]
  by_cases h1 : b < 32 * j
  · rw [if_neg (by omega)]
    simp [h1]
  · by_cases h2 : b < 32 * j + 32
    · rw [if_pos (by omega)]
      have : b - 32 * j < 32 := by omega
      have h3 : b - 32 * j < 2048 := by omega
      simp [h1, this, h3]
    · rw [if_neg (by omega)]
      have h4 : ¬ b - 32 * j < 32 := by omega
      simp [h1, h4, BitVec.getLsbD_of_ge v (b - 32 * j) (by omega)]

/-- R53: the word replaced reads as written. -/
theorem wordOf_setWord_self (a : FixedInt) {j : Nat} (v : Word) (hj : j < 64) : wordOf (setWord a j v) j = v := by
  apply BitVec.eq_of_getLsbD_eq
  intro b hb
  rw [getLsbD_wordOf, getLsbD_setWord a j v (by omega), if_pos (by omega)]
  simp [hb]

/-- R53: every other word reads as before. -/
theorem wordOf_setWord_of_ne (a : FixedInt) {j k : Nat} (v : Word) (hk : k < 64) (h : k ≠ j) :
    wordOf (setWord a j v) k = wordOf a k := by
  apply BitVec.eq_of_getLsbD_eq
  intro b hb
  rw [getLsbD_wordOf, getLsbD_wordOf, getLsbD_setWord a j v (by omega), if_neg (by omega)]

/-- R8: values with the same words are the same. -/
theorem eq_of_wordOf_eq {a b : FixedInt} (h : ∀ j : Nat, j < 64 → wordOf a j = wordOf b j) : a = b := by
  apply BitVec.eq_of_getLsbD_eq
  intro i hi
  have h' := congrArg (fun w => w.getLsbD (i % 32)) (h (i / 32) (by omega))
  simp only [getLsbD_wordOf] at h'
  rw [show 32 * (i / 32) + i % 32 = i by omega, decide_eq_true (by omega)] at h'
  simpa using h'

/-- R53: writing the same word twice is writing it once. -/
theorem setWord_setWord (a : FixedInt) {j : Nat} (v : Word) (hj : j < 64) :
    setWord (setWord a j v) j v = setWord a j v := by
  apply eq_of_wordOf_eq
  intro k hk
  by_cases h : k = j
  · subst h; rw [wordOf_setWord_self _ _ hk, wordOf_setWord_self _ _ hk]
  · rw [wordOf_setWord_of_ne _ _ hk h]

/-! The number a list of words stands for. -/

theorem valOf_lt (l : List Word) : valOf l < 2 ^ (32 * l.length) := by
  induction l with
  | nil => simp [valOf]
  | cons w ws ih =>
    have hw := w.isLt
    have : 2 ^ (32 * (ws.length + 1)) = 2 ^ 32 * 2 ^ (32 * ws.length) := by rw [← Nat.pow_add]; congr 1; omega
    simp only [valOf, List.length_cons, this]
    calc w.toNat + 2 ^ 32 * valOf ws < 2 ^ 32 * (valOf ws + 1) := by omega
      _ ≤ 2 ^ 32 * 2 ^ (32 * ws.length) := Nat.mul_le_mul_left _ ih

/-- R8: the words of a value from word k on stand for the value shifted down by k words. -/
theorem valOf_map_range (a n k : Nat) :
    valOf ((List.range' k n).map fun j => BitVec.ofNat 32 (a / 2 ^ (32 * j))) = a / 2 ^ (32 * k) % 2 ^ (32 * n) := by
  induction n generalizing k with
  | zero => simp [valOf, Nat.mod_one]
  | succ n ih =>
    rw [List.range'_succ, List.map_cons, valOf, ih (k + 1), BitVec.toNat_ofNat,
      show 32 * (k + 1) = 32 * k + 32 by omega, Nat.pow_add, ← Nat.div_div_eq_div_mul,
      show 32 * (n + 1) = 32 + 32 * n by omega, Nat.pow_add 2 32, Nat.mod_mul]

/-- R8: a value's words stand for it. -/
theorem valOf_wordsOf (a : FixedInt) : valOf (wordsOf a) = a.toNat := by
  have h : wordsOf a = (List.range' 0 64).map fun j => BitVec.ofNat 32 (a.toNat / 2 ^ (32 * j)) := by
    rw [wordsOf, List.range_eq_range']
    apply List.map_congr_left
    intro j _
    apply BitVec.eq_of_toNat_eq
    rw [toNat_wordOf, BitVec.toNat_ofNat]
  exact (congrArg valOf h).trans ((valOf_map_range ..).trans
    ((congrArg (· % _) (Nat.div_one _)).trans (Nat.mod_eq_of_lt a.isLt)))

@[simp] theorem ofWords_wordsOf (a : FixedInt) : ofWords (wordsOf a) = a := by
  rw [ofWords, valOf_wordsOf, BitVec.ofNat_toNat, BitVec.setWidth_eq]

theorem toNat_ofWords {l : List Word} (h : l.length = 64) : (ofWords l).toNat = valOf l := by
  have := valOf_lt l
  rw [h] at this
  exact BitVec.toNat_ofNat .. |>.trans (Nat.mod_eq_of_lt this)

/-- R8: word j of the value of a list of words is the list's entry j. -/
theorem valOf_div_mod (l : List Word) (j : Nat) : valOf l / 2 ^ (32 * j) % 2 ^ 32 = (l[j]?.getD 0).toNat := by
  induction l generalizing j with
  | nil => simp [valOf]
  | cons w ws ih =>
    have hw := w.isLt
    cases j with
    | zero => simp only [valOf, Nat.mul_zero, Nat.pow_zero, Nat.div_one, List.getElem?_cons_zero, Option.getD_some]; omega
    | succ j =>
      rw [List.getElem?_cons_succ, ← ih j, valOf, show 32 * (j + 1) = 32 + 32 * j by omega, Nat.pow_add,
        ← Nat.div_div_eq_div_mul, show (w.toNat + 2 ^ 32 * valOf ws) / 2 ^ 32 = valOf ws by omega]

theorem wordOf_ofWords {l : List Word} (h : l.length = 64) (j : Nat) : wordOf (ofWords l) j = l[j]?.getD 0 := by
  apply BitVec.eq_of_toNat_eq
  rw [toNat_wordOf, toNat_ofWords h, valOf_div_mod]

/-- R8: word j, below 64, of a value given word by word. -/
theorem wordOf_ofWords_map (f : Nat → Word) {j : Nat} (hj : j < 64) :
    wordOf (ofWords ((List.range 64).map f)) j = f j := by
  rw [wordOf_ofWords (by simp)]
  simp [hj]

end Sys2Proof.Machine
end

