-- ==== Sys2Proof/Tests/Slice0.lean ====
section
/-! SUPPORT. Tests/Slice0.lean: the model's own tests. Words and expected values are those of the spec's rules and of
spec/95_test_vectors.md (cited by number); nothing here is an obligation. -/

namespace Sys2Proof.Tests

set_option Elab.async false  -- one proof at a time: each thread takes a stack of its own

open Sys2Proof.Machine

/-! ### Helpers -/

/-- A part of the state after a command. -/
def after {α : Type} (i : Instr) (s : State) (f : State → α) : Option α :=
  match exec i s with
  | .next t => some (f t)
  | .fault _ => none
  | .refused _ => none

/-- A part of the state after one step. -/
def stepped {α : Type} (s : State) (f : State → α) : Option α :=
  match step s with
  | .next t => some (f t)
  | .fault _ => none
  | .refused _ => none

/-- Reset, with x[0] and x[1] given. -/
def ops (a b : FixedInt) : State := (State.reset.setReg 0 a).setReg 1 b

/-- Reset, with x[0] to x[3] given. -/
def ops4 (a b n mu : FixedInt) : State := ((ops a b).setReg 2 n).setReg 3 mu

/-- Reset, with the pair buffer's first six words given. -/
def pairs (p0 p1 p2 p3 p4 p5 : Word) : State :=
  (((((State.reset.setPair 0 p0).setPair 1 p1).setPair 2 p2).setPair 3 p3).setPair 4 p4).setPair 5 p5

/-- Reset, with a command word pending and the given inputs to come. -/
def busyWith (v : Word) (ins : List Input) : State := { State.reset.accept v with inputs := ins }

/-- The words of a value that are not 0, with their indexes. -/
def nonzeroWords (a : FixedInt) : List (Nat × Word) :=
  ((List.range 64).map fun j => (j, wordOf a j)).filter fun p => p.2 != 0

/-! ### WellFormed: the one check, and terms beside it -/

theorem test_wf_refuses_ldwl_257 : (Instr.ldwl 0 257).wellFormed = false := by decide
theorem test_wf_refuses_ldwl_4095 : (Instr.ldwl 7 4095).wellFormed = false := by decide
theorem test_wf_takes_ldwl_256 : (Instr.ldwl 0 256).wellFormed = true := by decide
theorem test_wf_takes_shl_4095 : (Instr.shl 2 1 4095).wellFormed = true := by decide

/-! ### Decoding, every constructor by a word of the spec -/

theorem test_decode_clr : decode? 0x0B000000 = some (.clr 3) := by decide                          -- R101
theorem test_decode_mov : decode? 0x12200000 = some (.mov 2 1) := by decide                        -- R102
theorem test_decode_ldwl : decode? 0x18000006 = some (.ldwl 0 6) := by decide                      -- R103
theorem test_decode_add : decode? 0x22040000 = some (.add 2 0 1) := by decide                      -- R104
theorem test_decode_sub : decode? 0x2B040000 = some (.sub 3 0 1) := by decide                      -- R105
theorem test_decode_cmp : decode? 0x30C00000 = some (.cmp 6 0) := by decide                        -- P2
theorem test_decode_shlw : decode? 0x3C60003E = some (.shlw 4 3 62) := by decide                   -- P5
theorem test_decode_shl : decode? 0x422007FF = some (.shl 2 1 2047) := by decide                   -- R121
theorem test_decode_shr : decode? 0x4B400020 = some (.shr 3 2 32) := by decide                     -- P5
theorem test_decode_bitlen : decode? 0x50800000 = some (.bitlen 4) := by decide                    -- P7
theorem test_decode_getbit : decode? 0x58600001 = some (.getbit 3 1) := by decide                  -- P2
theorem test_decode_mulw : decode? 0x63280000 = some (.mulw 3 1 2) := by decide                    -- R130
theorem test_decode_mul : decode? 0x6A240000 = some (.mul 2 1 1) := by decide                      -- P5, SQR
theorem test_decode_divmod : decode? 0x751C6000 = some (.divmod 5 6 0 7) := by decide              -- S5
theorem test_decode_pow : decode? 0x7A040000 = some (.pow 2 0 1) := by decide                      -- R150
theorem test_decode_gcd : decode? 0x85440000 = some (.gcd 5 2 1) := by decide                      -- P5
theorem test_decode_lcm : decode? 0x8E440000 = some (.lcm 6 2 1) := by decide                      -- P5
theorem test_decode_bmu : decode? 0x92200000 = some (.bmu 2 1) := by decide                        -- R155
theorem test_decode_bred : decode? 0x9BC50000 = some (.bred 3 6 1 2) := by decide                  -- P7
theorem test_decode_powmod : decode? 0xA674A000 = some (.powmod 6 3 5 1 2) := by decide            -- P2
/-- The bits of R104's ADD r2, r0, r1 written out: 00100 010 000 001 000 000 000000000000. -/
theorem test_decode_add_bits : decode? 0b00100010000001000000000000000000 = some (.add 2 0 1) := by decide
theorem test_reject_zero : decode 0x00000000 = .error .reservedOpcode := by rfl                    -- V15.1
theorem test_reject_op15 : decode 0xA8000000 = .error .reservedOpcode := by rfl                    -- V15.2
theorem test_reject_op1f : decode 0xF8000000 = .error .reservedOpcode := by rfl                    -- V15.3
theorem test_reject_cmp_rd : decode 0x31040000 = .error .unusedFieldNotZero := by rfl              -- V15.4
theorem test_reject_clr_imm : decode 0x0B000001 = .error .unusedFieldNotZero := by rfl             -- V15.5
theorem test_reject_add_imm : decode 0x22040001 = .error .unusedFieldNotZero := by rfl             -- V15.6
theorem test_reject_ldwl_257 : decode 0x18000101 = .error .listTooLong := by rfl                   -- V15.9
theorem test_encode_powmod : encode (.powmod 3 0 4 1 2) = 0xA310A000 := by decide                  -- R158
theorem test_legal_shl_4095 : legal 0x42200FFF = true ∧ legal 0x50200001 = false := by decide      -- V15.11, V15.7

/-! ### Commands -/

theorem test_clr : after (.clr 1) (ops 7 15) (·.reg 1) = some 0 := by decide +kernel                        -- V1.1
theorem test_mov : after (.mov 2 1) (ops 7 0xA) (fun t => (t.reg 2, t.reg 1)) = some (0xA, 0xA) := by decide +kernel  -- V1.2
theorem test_ldwl_bad_index : after (.ldwl 0 6) (pairs 0 0xDEADBEEF 64 5 63 0x80000000)
    (fun t => (t.reg 0, t.statusWord)) = some (2 ^ 2047 + 0xDEADBEEF, 0x12) := by decide +kernel    -- V1.3
theorem test_ldwl_odd : after (.ldwl 0 3) (pairs 0 5 70 0 0 0)
    (fun t => (t.reg 0, t.statusWord)) = some (0, 0x0A) := by decide +kernel                        -- V1.4
theorem test_ldwl_later_wins : after (.ldwl 0 4) (pairs 1 7 1 9 0 0) (·.reg 0) = some (9 * 2 ^ 32) := by
  decide +kernel                                                                                    -- V1.6
theorem test_add : after (.add 2 0 1) (ops 0x15 0xA) (·.reg 2) = some 0x1F := by decide +kernel     -- S1
theorem test_add_wraps : after (.add 0 0 1) (ops (-1) 1) (fun t => (t.reg 0, t.statusWord)) = some (0, 2) := by
  decide +kernel                                                                                    -- V2.1
theorem test_sub : after (.sub 3 0 1) (ops 0x15 0xA) (·.reg 3) = some 0xB := by decide +kernel      -- S2
theorem test_sub_wraps : after (.sub 1 0 1) (ops 0xA 0x15) (·.reg 1) = some (-11) := by decide +kernel -- V2.6
theorem test_cmp_lt : after (.cmp 0 1) (ops 0xA 0x15) (·.result) = some 0xFFFFFFFF := by decide +kernel -- V3.1
theorem test_cmp_gt : after (.cmp 0 1) (ops (2 ^ 32) (2 ^ 32 - 1)) (·.result) = some 1 := by decide +kernel -- V3.4
theorem test_shlw : after (.shlw 2 1 63) (ops 0 1) (fun t => nonzeroWords (t.reg 2)) = some [(63, 1)] := by
  decide +kernel                                                                                    -- V4.2
theorem test_shlw_64 : after (.shlw 2 1 64) (ops 0 1) (·.reg 2) = some 0 := by decide +kernel       -- V4.3
theorem test_shl_carries : after (.shl 2 1 1) (ops 0 0x80000000) (·.reg 2) = some (2 ^ 32) := by decide +kernel -- V4.7
theorem test_shl_drops : after (.shl 2 1 2047) (ops 0 3) (·.reg 2) = some (2 ^ 2047) := by decide +kernel -- V4.8
theorem test_shr : after (.shr 2 1 32) (ops 0 (2 ^ 64 + 2 ^ 32)) (·.reg 2) = some (2 ^ 32 + 1) := by
  decide +kernel                                                                                    -- V4.11
theorem test_shr_2048 : after (.shr 2 1 2048) (ops 0 (-1)) (·.reg 2) = some 0 := by decide +kernel  -- V4.14
theorem test_bitlen : after (.bitlen 0) (ops (2 ^ 32) 0) (·.result) = some 33 := by decide +kernel  -- V5.4
theorem test_bitlen_full : after (.bitlen 0) (ops (-1) 0) (·.result) = some 2048 := by decide +kernel -- V5.5
theorem test_getbit : after (.getbit 0 4) (ops 0x15 0) (·.result) = some 1 := by decide +kernel     -- V5.8
theorem test_getbit_sentinel : after (.getbit 0 2048) (ops 0x15 0) (fun t => (t.result, t.statusWord)) =
    some (0xFFFFFFFF, 2) := by decide +kernel                                                       -- V5.10
theorem test_mulw : after (.mulw 2 0 1) (ops 5 (2 ^ 32 + 3)) (·.reg 2) = some 0xF := by decide +kernel -- V6.5
theorem test_mulw_drops : after (.mulw 2 0 1) (ops (-1) 2) (·.reg 2) = some (-2) := by decide +kernel -- V6.3
theorem test_mul : after (.mul 4 0 1) (ops 0x15 0xA) (·.reg 4) = some 0xD2 := by decide +kernel     -- S3
theorem test_mul_wraps : after (.mul 4 0 1) (ops (-1) (-1)) (·.reg 4) = some 1 := by decide +kernel -- V7.4
theorem test_divmod : after (.divmod 5 6 0 1) (ops (2 ^ 64) 3)
    (fun t => (t.reg 5, t.reg 6)) = some (0x5555555555555555, 1) := by decide +kernel               -- V8.1
theorem test_divmod_same_register : after (.divmod 5 5 0 1) (ops 0x15 0xA) (·.reg 5) = some 1 := by
  decide +kernel                                                                                    -- V8.10
theorem test_divmod_by_zero : after (.divmod 5 6 0 7) (ops 0x15 0xA)
    (fun t => (t.reg 5, t.reg 6, t.statusWord)) = some (0, 0, 6) := by decide +kernel               -- S5
theorem test_pow : after (.pow 2 0 1) (ops 3 5) (·.reg 2) = some 243 := by decide +kernel           -- V14.7
theorem test_pow_zero_zero : after (.pow 2 0 1) (ops 0 0) (·.reg 2) = some 1 := by decide +kernel   -- V14.3
theorem test_gcd : after (.gcd 2 0 1) (ops (2 ^ 100) (3 * 2 ^ 60)) (·.reg 2) = some (2 ^ 60) := by
  decide +kernel                                                                                    -- V9.6
theorem test_gcd_zero : after (.gcd 2 0 1) (ops 0 5) (·.reg 2) = some 5 := by decide +kernel        -- V9.2
theorem test_lcm : after (.lcm 3 0 1) (ops 4 6) (·.reg 3) = some 12 := by decide +kernel            -- V10.1
theorem test_lcm_zero : after (.lcm 3 0 1) (ops 0 5) (fun t => (t.reg 3, t.statusWord)) = some (0, 2) := by
  decide +kernel                                                                                    -- V10.2
theorem test_bmu : after (.bmu 2 1) (ops 0 3233) (·.reg 2) = some 5189 := by decide +kernel         -- V11.5
theorem test_bmu_beyond : after (.bmu 2 1) (ops 0 (2 ^ 1023 + 12345)) (fun t => (t.reg 2, t.statusWord)) =
    some (0, 2) := by decide +kernel                                                                -- V11.8
theorem test_bred : after (.bred 4 0 1 2) (ops4 65 13 19 0) (·.reg 4) = some 0 := by decide +kernel -- V12.3
theorem test_bred_signed : after (.bred 4 0 1 2) (ops4 10 10 100 0) (·.reg 4) = some 0 := by decide +kernel -- V12.6
theorem test_powmod : after (.powmod 4 0 1 2 3) (ops4 65 17 3233 5189) (·.reg 4) = some 2790 := by
  decide +kernel                                                                                    -- V13.6
theorem test_powmod_zero_modulus : after (.powmod 4 0 1 2 3) (ops4 123 456 0 0)
    (fun t => (t.reg 4, t.statusWord)) = some (0, 6) := by decide +kernel                           -- V13.8

/-! ### The word-level and loop forms -/

theorem test_wordSub : wordSub 0xA 0x15 = -11 := by decide +kernel                                  -- V2.6
theorem test_wordMul : wordMul (2 ^ 64 - 1) (2 ^ 64 - 1) = 2 ^ 128 - 2 ^ 65 + 1 := by decide +kernel -- V7.1
theorem test_reduceByLoops : reduceByLoops 3 10 10 100 = some 0 := by decide +kernel                -- V12.6

/-! ### The host port -/

theorem test_read_id : (State.reset.hostRead .word 0x000).readData = 0x4D504131 := by decide        -- V16.1
theorem test_read_cfg : (State.reset.hostRead .word 0x004).readData = 0x10084020 := by decide       -- V16.2
theorem test_narrow_read : (State.reset.hostRead .half 0x800).statusWord = 0x80 := by decide        -- V16.4
theorem test_write_window : ((State.reset.hostWrite .word 0x904 1).reg 1) = 2 ^ 32 := by decide +kernel -- V16.5
theorem test_read_window_busy : (State.hostRead (busyWith 0x22040000 []) .word 0x800).statusWord = 0x81 := by
  decide                                                                                            -- V16.6
theorem test_result_read_only : (State.reset.hostWrite .word 0x010 5).result = 0 := by decide       -- V16.8
theorem test_irq_after_illegal : ((State.reset.hostWrite .word 0x014 2).hostWrite .word 0x008 0).irq = true := by
  decide +kernel                                                                                    -- P3
theorem test_byte_lanes : State.byteAt (ops 0x0A0B0C0D 0) 0x801 = 0x0C := by decide +kernel         -- R57

/-! ### Steps -/

theorem test_step_overrun : stepped (busyWith 0x75046000 [.write .word 0x008 0x22040000])
    (fun t => (t.cmdLast, t.statusWord)) = some (0x75046000, 0x41) := by decide +kernel             -- P4 (a)
theorem test_step_reset_abandons : stepped (busyWith 0xA714A000 [.reset])
    (fun t => (t.cmdLast, t.statusWord, t.reg 7)) = some (0, 0, 0) := by decide +kernel             -- P6
theorem test_withFetchWord : stepped (State.reset.withFetchWord 32 0x0B000000)
    (fun t => (t.cmdLast, t.statusWord, t.inputs)) = some (0x0B000000, 2, []) := by decide +kernel

/-! ### Host-side text -/

theorem test_fromHex : fromHex [' ', '0', 'x', '1', 'F', ' '] = some 0x1F := by decide +kernel      -- V0.1
theorem test_fromHex_refuses : fromHex ['1', '2', 'g'] = none := by decide +kernel                  -- V0.4
theorem test_print : toHexText (2 ^ 32) = ['1', '-', '0', '0', '0', '0', '0', '0', '0', '0'] := by
  decide +kernel                                                                                    -- V0.6
theorem test_assemble : (assemble ['D', 'I', 'V', 'M', 'O', 'D', ' ', 'r', '5', ',', ' ', 'r', '6', ',', ' ', 'r', '0',
    ',', ' ', 'r', '1']).map encode = some 0x75046000 := by decide +kernel                          -- S4
theorem test_assemble_hex : (assemble ['S', 'H', 'L', ' ', 'r', '2', ',', 'r', '1', ',', '#', '0', 'x', '7', 'f',
    'f']).map encode = some 0x422007FF := by decide +kernel                                         -- R121

/-! ### Witnesses: states and operands that meet the hypotheses of a statement together, one for each clause, at the
ends of the ranges -/

/-- The step answers a next state, and `p` holds of it. -/
theorem exists_step {s : State} {p : State → Bool} (h : stepped s p = some true) :
    ∃ t, step s = .next t ∧ p t = true := by
  unfold stepped at h
  split at h
  · exact ⟨_, ‹_›, by simpa using h⟩
  · cases h
  · cases h

/-- The command answers a next state, and `p` holds of it. -/
theorem exists_after {i : Instr} {s : State} {p : State → Bool} (h : after i s p = some true) :
    ∃ t, exec i s = .next t ∧ p t = true := by
  unfold after at h
  split at h
  · exact ⟨_, ‹_›, by simpa using h⟩
  · cases h
  · cases h

/-- Reset with the given inputs to come. -/
def idleWith (ins : List Input) : State := { State.reset with inputs := ins }

/-- Reset with every flag set and the given inputs to come. -/
def flagsWith (ins : List Input) : State :=
  { State.reset with flags := ⟨true, true, true, true, true, true, true⟩, inputs := ins }

/-- x[0] = a and x[1] = b, the command word v pending, no input to come. -/
def runWith (v : Word) (a b : FixedInt) : State := { (ops a b).accept v with inputs := [] }

theorem witness_DecodeAfterEncode_ldwl : (Instr.ldwl 3 256).wellFormed = true := by decide
theorem witness_DecodeAfterEncode_powmod : (Instr.powmod 7 7 7 7 7).wellFormed = true := by decide
theorem witness_EncodeAfterDecode_ldwl : decode 0x1B000100 = .ok (.ldwl 3 256) := rfl
theorem witness_EncodeAfterDecode_powmod : decode 0xA7FFF000 = .ok (.powmod 7 7 7 7 7) := rfl
theorem witness_NoWordMatchesTwoOpcodeRows :
    ∃ p ∈ opcodeRows, ∃ q ∈ opcodeRows, p.matches 0x22040000 = true ∧ q.matches 0x22040000 = true := by decide

theorem witness_StepRuns_engine : (busyWith 0x22040000 [.engine]).busy = true ∧
    decode (busyWith 0x22040000 [.engine]).pending = .ok (.add 2 0 1) ∧
    (busyWith 0x22040000 [.engine]).inputs = .engine :: [] := ⟨rfl, rfl, rfl⟩
theorem witness_StepRuns_noInput : (busyWith 0x22040000 []).busy = true ∧
    decode (busyWith 0x22040000 []).pending = .ok (.add 2 0 1) ∧ (busyWith 0x22040000 []).inputs = [] :=
  ⟨rfl, rfl, rfl⟩
theorem witness_PlacedCommandRunsNext : decodeTableWord 32 0xA7FFF000 = some (.powmod 7 7 7 7 7) := by decide
theorem witness_IssuedCommandIsExecuted : ∃ s : State, s.busy = false ∧ (Instr.ldwl 0 256).wellFormed = true ∧
    s.inputs = .write .word (hostAddress 0x008) (encode (.ldwl 0 256)) :: .engine :: [.reset] :=
  ⟨idleWith (.write .word (hostAddress 0x008) (encode (.ldwl 0 256)) :: .engine :: [.reset]), rfl, rfl, rfl⟩
theorem witness_OverrunDropsTheWordOnly : (busyWith 0x75046000 []).busy = true ∧
    decode (busyWith 0x75046000 []).pending = .ok (.divmod 5 6 0 1) := ⟨rfl, rfl⟩
theorem witness_Illegal_opcode_zero : State.reset.busy = false ∧ ((0x07FFFFFF : Word).extractLsb' 27 5).toNat = 0 := by
  decide
theorem witness_Illegal_opcode_high : State.reset.busy = false ∧
    0x15 ≤ ((0xA8000000 : Word).extractLsb' 27 5).toNat := by decide
theorem witness_Illegal_field : State.reset.busy = false ∧
    ∃ r ∈ opcodeRows, r.op = ((0x08000001 : Word).extractLsb' 27 5).toNat ∧
      (0x08000001 : Word) &&& r.mask ≠ r.value := by decide
theorem witness_Illegal_length : State.reset.busy = false ∧ ((0x18000101 : Word).extractLsb' 27 5).toNat = 0x03 ∧
    256 < ((0x18000101 : Word).extractLsb' 0 12).toNat := by decide
theorem witness_IdleEngineTurn_engine : (idleWith [.engine]).busy = false ∧ (idleWith [.engine]).inputs = .engine :: [] :=
  ⟨rfl, rfl⟩
theorem witness_IdleEngineTurn_noInput : State.reset.busy = false ∧ State.reset.inputs = [] := ⟨rfl, rfl⟩
theorem witness_ProtocolInv_busy : (busyWith 0xA7FFF000 [.read .word 0x800, .reset]).busy = true ∧
    (busyWith 0xA7FFF000 [.read .word 0x800, .reset]).ProtocolInv := ⟨rfl, fun _ => by decide⟩
theorem witness_ProtocolInv_idle : (idleWith [.write .word 0x008 0]).busy = false ∧
    (idleWith [.write .word 0x008 0]).ProtocolInv := ⟨rfl, fun h => by cases h⟩
theorem witness_Completes_withoutReset : (busyWith 0xA7FFF000 [.read .word 0x800, .engine, .engine]).ProtocolInv ∧
    (busyWith 0xA7FFF000 [.read .word 0x800, .engine, .engine]).busy = true ∧
    Input.reset ∉ (busyWith 0xA7FFF000 [.read .word 0x800, .engine, .engine]).inputs := ⟨fun _ => by decide, rfl, by decide⟩
theorem witness_ResetClears : (busyWith 0x22040000 [.reset, .engine]).inputs = .reset :: [.engine] := rfl

theorem witness_Offset_ends : 0 < 4096 ∧ 4095 < 4096 := by decide
/-- For the window and the pair buffer: an idle state, and the first and last offsets of both. -/
theorem witness_Idle : (ops 1 2).busy = false ∧ windowOffset 0 0 = 0x800 ∧ windowOffset 7 63 = 0xFFC ∧
    pairOffset 0 = 0x400 ∧ pairOffset 255 = 0x7FC := by decide +kernel
theorem witness_Closed_data : (busyWith 0x22040000 []).busy = true ∧ 0x400 ≤ offsetOf 0x400 ∧
    0x400 ≤ offsetOf 0x1FFF := by decide
theorem witness_Closed_control : (busyWith 0x22040000 []).busy = true ∧
    (offsetOf 0x000 < 0x018 ∧ offsetOf 0x000 % 4 = 0) ∧ (offsetOf 0x1014 < 0x018 ∧ offsetOf 0x1014 % 4 = 0) := by decide
theorem witness_Refused_narrow : AccessWidth.half ≠ .word ∨ offsetOf 0x800 % 4 ≠ 0 := by decide
theorem witness_Refused_misaligned : AccessWidth.word ≠ .word ∨ offsetOf 0x1FFF % 4 ≠ 0 := by decide
theorem witness_Ignored_reserved : (0x018 % 4 = 0 ∧ 0x018 < 0x400 ∧ 0x018 ≤ 0x018) ∧
    (0x3FC % 4 = 0 ∧ 0x3FC < 0x400 ∧ 0x018 ≤ 0x3FC) := by decide
theorem witness_Ignored_readOnly : (0x000 % 4 = 0 ∧ 0x000 < 0x400) ∧ (0x004 % 4 = 0 ∧ 0x004 < 0x400) ∧
    (0x010 % 4 = 0 ∧ 0x010 < 0x400) := by decide
theorem witness_WriteTwice : State.reset.busy = false ∧ 0x400 ≤ offsetOf 0x400 ∧ 0x400 ≤ offsetOf 0xFFF := by decide

theorem witness_FlagCleared_write : ∃ t, step (flagsWith [.write .word 0x00C 2]) = .next t ∧
    ((flagsWith [.write .word 0x00C 2]).statusWord.getLsbD 1 && !t.statusWord.getLsbD 1) = true :=
  exists_step (by decide +kernel)
theorem witness_FlagCleared_reset : ∃ t, step (flagsWith [.reset]) = .next t ∧
    ((flagsWith [.reset]).statusWord.getLsbD 7 && !t.statusWord.getLsbD 7) = true := exists_step (by decide +kernel)
theorem witness_ResultChanges_cmp : ∃ t, step (runWith 0x30040000 1 2) = .next t ∧
    (t.result != (runWith 0x30040000 1 2).result) = true := exists_step (by decide +kernel)
theorem witness_ResultChanges_reset : ∃ t, step { idleWith [.reset] with result := 1 } = .next t ∧
    (t.result != State.result { idleWith [.reset] with result := 1 }) = true := exists_step (by decide +kernel)
theorem witness_RegisterChanges_command : ∃ t, step (runWith 0x75046000 5 7) = .next t ∧
    (t.reg 6 != (runWith 0x75046000 5 7).reg 6) = true := exists_step (by decide +kernel)
theorem witness_RegisterChanges_write : ∃ t, step (idleWith [.write .word 0xFFC 1]) = .next t ∧
    (t.reg 7 != (idleWith [.write .word 0xFFC 1]).reg 7) = true := exists_step (by decide +kernel)
theorem witness_PairChanges_write : ∃ t, step (idleWith [.write .word 0x7FC 1]) = .next t ∧
    (t.pb[255] != (idleWith [.write .word 0x7FC 1]).pb[255]) = true := exists_step (by decide +kernel)
theorem witness_PairChanges_reset : ∃ t, step { (State.reset.setPair 0 1) with inputs := [.reset] } = .next t ∧
    (t.pb[0] != (State.reset.setPair 0 1).pb[0]) = true := exists_step (by decide +kernel)

theorem witness_Frame : (4 : RegIdx) ∉ (Instr.divmod 5 6 0 1).dests ∧ (Instr.divmod 5 6 0 1).writesResult = false ∧
    (0 : RegIdx) ∉ (Instr.cmp 0 1).dests := by decide
/-- The last byte before and the first byte after x[5], at the ADD r5, r0, r1 that writes it. -/
theorem witness_NoOtherByte : (∃ t, exec (.add 5 0 1) (ops 1 2) = .next t ∧ true = true) ∧
    ∀ off ∈ [0, 0x00B, 0x010, 0xCFF, 0xE00, 0xFFF], off < 4096 ∧ ¬(0x00C ≤ off ∧ off < 0x010) ∧
      ¬((Instr.add 5 0 1).writesResult = true ∧ 0x010 ≤ off ∧ off < 0x014) ∧
      ∀ r ∈ (Instr.add 5 0 1).dests, ¬(0x800 + 0x100 * r.val ≤ off ∧ off < 0x900 + 0x100 * r.val) :=
  ⟨exists_after (by decide +kernel), by decide⟩
theorem witness_Cause_dz : (Instr.bmu 2 1).wellFormed = true ∧
    ∃ t, exec (.bmu 2 1) (ops 5 0) = .next t ∧ (t.flags.dz && (ops 5 0).reg 1 == 0) = true :=
  ⟨rfl, exists_after (by decide +kernel)⟩
theorem witness_Cause_malf : (Instr.ldwl 2 255).wellFormed = true ∧
    ∃ t, exec (.ldwl 2 255) (ops 5 0) = .next t ∧ t.flags.malf = true := ⟨rfl, exists_after (by decide +kernel)⟩
theorem witness_Cause_idx : (Instr.ldwl 2 6).wellFormed = true ∧ ∃ t, exec (.ldwl 2 6) (pairs 0 1 63 2 64 3) = .next t ∧
    t.flags.idx = true := ⟨rfl, exists_after (by decide +kernel)⟩

theorem witness_Ldwl_odd : (255 : Imm12).toNat ≤ 256 ∧ (255 : Imm12).toNat % 2 = 1 := by decide
theorem witness_Ldwl_even : (256 : Imm12).toNat ≤ 256 ∧ (256 : Imm12).toNat % 2 = 0 ∧
    (0 : Imm12).toNat ≤ 256 ∧ (0 : Imm12).toNat % 2 = 0 := by decide
/-- Word 63 named twice, by pairs 0 and 2, the later of which decides it; word 5 named by none. -/
theorem witness_Ldwl_words : (2 < (6 : Imm12).toNat / 2 ∧ (((pairs 63 1 64 2 63 3).pb[2 * 2]?).getD 0).toNat = 63 ∧
      ∀ l < 3, 2 < l → (((pairs 63 1 64 2 63 3).pb[2 * l]?).getD 0).toNat ≠ 63) ∧
    ∀ m < 3, (((pairs 63 1 64 2 63 3).pb[2 * m]?).getD 0).toNat ≠ 5 := by decide +kernel
theorem witness_AddUndoesSub : (0 : RegIdx) ≠ 1 := by decide
theorem witness_Divmod_nonzero : (ops 7 1).x[(1 : RegIdx)] ≠ 0 := by decide +kernel
theorem witness_Divmod_zero : (ops 7 0).x[(1 : RegIdx)] = 0 := by decide +kernel
theorem witness_Bmu_least : 1 ≤ 1 ∧ 1 ≤ 1023 ∧ 2 ^ (1 - 1) ≤ ((ops 0 1).x[(1 : RegIdx)]).toNat ∧
    ((ops 0 1).x[(1 : RegIdx)]).toNat < 2 ^ 1 := by decide +kernel
theorem witness_Bmu_greatest : 1 ≤ 1023 ∧ 1023 ≤ 1023 ∧
    2 ^ (1023 - 1) ≤ ((ops 0 (2 ^ 1023 - 1)).x[(1 : RegIdx)]).toNat ∧
    ((ops 0 (2 ^ 1023 - 1)).x[(1 : RegIdx)]).toNat < 2 ^ 1023 := by decide +kernel
theorem witness_Bmu_beyond : 2 ^ 1023 ≤ ((ops 0 (2 ^ 1023)).x[(1 : RegIdx)]).toNat := by decide +kernel
theorem witness_Bmu_zero : (ops 7 0).x[(1 : RegIdx)] = 0 := by decide +kernel
theorem witness_Bred_nonzero : (ops4 65 0 (-1) 0).x[(2 : RegIdx)] ≠ 0 := by decide +kernel
theorem witness_Bred_zero : (ops4 65 0 0 5).x[(2 : RegIdx)] = 0 := by decide +kernel
theorem witness_CorrectionLoops : (1 : FixedInt) ≠ 0 ∧ (-1 : FixedInt) ≠ 0 := by decide +kernel
theorem witness_TwoSubtractions : (2 ^ 1023 - 1 : FixedInt) ≠ 0 ∧ (2 ^ 1023 - 1 : FixedInt).toNat < 2 ^ 1023 ∧
    (5 : FixedInt).toNat < (2 ^ 1023 - 1 : FixedInt).toNat * (2 ^ 1023 - 1 : FixedInt).toNat := by decide +kernel
theorem witness_Powmod_capacity : (ops4 65 17 (2 ^ 1024 - 1) 0).x[(2 : RegIdx)] ≠ 0 ∧
    ((ops4 65 17 (2 ^ 1024 - 1) 0).x[(2 : RegIdx)]).toNat < 2 ^ 1024 := by decide +kernel
theorem witness_Powmod_nonzero : 65 = ((ops4 65 17 (-1) 0).x[(0 : RegIdx)]).toNat ∧
    17 = ((ops4 65 17 (-1) 0).x[(1 : RegIdx)]).toNat ∧
    2 ^ 2048 - 1 = ((ops4 65 17 (-1) 0).x[(2 : RegIdx)]).toNat ∧ 2 ^ 2048 - 1 ≠ 0 := by decide +kernel
theorem witness_Powmod_zero : 65 = ((ops4 65 17 0 0).x[(0 : RegIdx)]).toNat ∧
    17 = ((ops4 65 17 0 0).x[(1 : RegIdx)]).toNat ∧ 0 = ((ops4 65 17 0 0).x[(2 : RegIdx)]).toNat := by decide +kernel
/-- A filler before the prefix and inside it, then digits; the empty text; a body that begins with a second prefix. -/
theorem witness_FromHex_prefix : [' ', '0', '-', 'X', '1', '\t', 'F', 'a'].filter (fun c => !isHexFiller c) =
    '0' :: 'X' :: ['1', 'F', 'a'] ∧ ['1', 'F', 'a'].map hexDigit? = [1, 15, 10].map some := by decide
theorem witness_FromHex_plain : ([] : List Char).filter (fun c => !isHexFiller c) = [] ∧
    (∀ l : List Char, ([] : List Char) ≠ '0' :: 'x' :: l ∧ ([] : List Char) ≠ '0' :: 'X' :: l) ∧
    ([] : List Char).map hexDigit? = ([] : List Nat).map some := ⟨rfl, by simp, rfl⟩
theorem witness_FromHex_refused : ['0', 'x', '0', 'x', '1'].filter (fun c => !isHexFiller c) = '0' :: 'x' :: ['0', 'x', '1'] ∧
    ∃ c ∈ ['0', 'x', '1'], hexDigit? c = none := ⟨by decide, 'x', by simp, by decide⟩
theorem witness_WordList : (List.replicate 256 (0 : Word)).length ≤ 256 ∧
    256 < (List.replicate 257 (0 : Word)).length := by decide +kernel

end Sys2Proof.Tests
end

section
/-! The port's placement: what the open parameter BASE leaves of a host address (spec R6, R50). -/

namespace Sys2Proof.Machine

/-- R6: BASE is a whole number of windows, whichever page the platform chose. -/
theorem base_mod_window : Config.base % Config.window = 0 := Nat.mul_mod_right Config.window Config.basePage

/-- Settles O17: BASE is a multiple of the window's size, so the offset of an address, which is its remainder by that
size, does not see it. -/
theorem offsetDoesNotDependOnBase : Obligations.OffsetDoesNotDependOnBase :=
  ⟨base_mod_window, fun _ hoff => offsetOf_hostAddress hoff, offsetOf_lt⟩

end Sys2Proof.Machine
end

section
/-! The decoder and the legality check (spec R70 to R74): a command's word decodes to it, and the words that decode are
the legal ones. The masks of R72 are read as what they select, the opcode and the unused fields. -/

namespace Sys2Proof

/-- R70 to R76: a well-formed command decodes back from its word. -/
theorem decode_encode {i : Instr} (hwf : i.wellFormed = true) : decode (encode i) = .ok i := by
  rw [decode, encode, Fields.ofWord_toWord]
  cases i with
  | ldwl rd len =>
    have hlen : len.toNat ≤ 256 := of_decide_eq_true hwf
    simp [decodeFields, encodeFields, Fields.unusedZero, hlen]
  | _ => simp [decodeFields, encodeFields, Fields.accept, Fields.unusedZero]

/-- R70: words meet field by field. -/
theorem Fields.toWord_and_toWord (f g : Fields) : f.toWord &&& g.toWord =
    Fields.toWord ⟨f.op &&& g.op, f.rd &&& g.rd, f.rs1 &&& g.rs1, f.rs2 &&& g.rs2, f.rs3 &&& g.rs3,
      f.r4 &&& g.r4, f.imm &&& g.imm⟩ := by
  apply BitVec.eq_of_getLsbD_eq
  intro k hk
  simp only [BitVec.getLsbD_and, Fields.getLsbD_toWord _ _ hk]
  repeat' split
  all_goals rfl

theorem Fields.toWord_inj {f g : Fields} : f.toWord = g.toWord ↔ f = g :=
  ⟨fun h => by rw [← ofWord_toWord f, h, ofWord_toWord], congrArg toWord⟩

/-- R72: the mask of a command that uses the fields `u` selects the opcode and the fields it does not use. -/
def FieldUse.mask (u : FieldUse) : Fields where
  op  := -1
  rd  := bif u.rd then 0 else -1
  rs1 := bif u.rs1 then 0 else -1
  rs2 := bif u.rs2 then 0 else -1
  rs3 := bif u.rs3 then 0 else -1
  r4  := bif u.r4 then 0 else -1
  imm := bif u.imm then 0 else -1

/-- The fields of a word in which only the opcode is set. -/
def Fields.opOnly (op : Nat) : Fields := ⟨BitVec.ofNat 5 op, 0, 0, 0, 0, 0, 0⟩

/-- R72: each opcode of the map with its column "fields used". -/
def fieldUses : List (Nat × FieldUse) :=
  [(0x01, { rd := true }), (0x02, { rd := true, rs1 := true }), (0x03, { rd := true, imm := true }),
   (0x04, { rd := true, rs1 := true, rs2 := true }), (0x05, { rd := true, rs1 := true, rs2 := true }),
   (0x06, { rs1 := true, rs2 := true }), (0x07, { rd := true, rs1 := true, imm := true }),
   (0x08, { rd := true, rs1 := true, imm := true }), (0x09, { rd := true, rs1 := true, imm := true }),
   (0x0A, { rs1 := true }), (0x0B, { rs1 := true, imm := true }),
   (0x0C, { rd := true, rs1 := true, rs2 := true }), (0x0D, { rd := true, rs1 := true, rs2 := true }),
   (0x0E, { rd := true, rs1 := true, rs2 := true, r4 := true }),
   (0x0F, { rd := true, rs1 := true, rs2 := true }), (0x10, { rd := true, rs1 := true, rs2 := true }),
   (0x11, { rd := true, rs1 := true, rs2 := true }), (0x12, { rd := true, rs1 := true }),
   (0x13, { rd := true, rs1 := true, rs2 := true, rs3 := true }),
   (0x14, { rd := true, rs1 := true, rs2 := true, rs3 := true, r4 := true })]

/-- The row of the opcode map that an opcode and its used fields make. -/
def rowOf (p : Nat × FieldUse) : OpcodeRow := ⟨p.1, (Fields.opOnly p.1).toWord, p.2.mask.toWord⟩

/-- R72: match and mask of every row follow from its opcode and its column "fields used". -/
theorem opcodeRows_eq_map_rowOf : opcodeRows = fieldUses.map rowOf := by decide

/-- R72, R73: a word matches a row when it has the row's opcode and 0 in every field the row does not use. -/
theorem rowOf_matches_toWord (p : Nat × FieldUse) (f : Fields) :
    (rowOf p).matches f.toWord = (f.op == BitVec.ofNat 5 p.1 && f.unusedZero p.2) := by
  obtain ⟨op, ⟨rd, rs1, rs2, rs3, r4, imm⟩⟩ := p
  rw [Bool.eq_iff_iff]
  simp only [OpcodeRow.matches, rowOf, Fields.toWord_and_toWord, Fields.opOnly, beq_iff_eq, Fields.toWord_inj,
    Fields.mk.injEq, FieldUse.mask, Fields.unusedZero, Bool.and_eq_true, Bool.or_eq_true, and_assoc]
  have masked {n : Nat} (x : BitVec n) (used : Bool) :
      x &&& (bif used then 0 else -1) = 0 ↔ used = true ∨ x = 0 := by
    cases used <;> simp [BitVec.neg_one_eq_allOnes]
  have masked_op : f.op &&& -1 = f.op := BitVec.and_allOnes
  simp only [masked, masked_op]

/-- R74: the legality check, field by field. -/
theorem legal_toWord (f : Fields) : legal f.toWord =
    (fieldUses.any (fun p => f.op.toNat == p.1 && f.unusedZero p.2) &&
      (f.op.toNat != 0x03 || decide (f.imm.toNat ≤ 256))) := by
  have hop : f.toWord.extractLsb' 27 5 = f.op := congrArg Fields.op f.ofWord_toWord
  have himm : f.toWord.extractLsb' 0 12 = f.imm := congrArg Fields.imm f.ofWord_toWord
  rw [legal, hop, himm, opcodeRows_eq_map_rowOf, List.any_map]
  congr 2
  funext p
  rw [Function.comp_apply, rowOf_matches_toWord, show (rowOf p).op = p.1 from rfl, BEq.comm]
  cases hp : f.op.toNat == p.1 with
  | false => rfl
  | true => rw [← eq_of_beq hp, BitVec.ofNat_toNat, BitVec.setWidth_eq, BEq.rfl, Bool.true_and]

theorem Fields.isSome_accept (f : Fields) (u : FieldUse) (i : Instr) :
    (f.accept u i).toOption.isSome = f.unusedZero u := by
  unfold Fields.accept
  split <;> simp_all [Except.toOption]

theorem decode?_eq_toOption (v : Word) : decode? v = (decode v).toOption := by
  unfold decode?
  cases decode v <;> rfl

/-- R72 to R74: the decoder accepts the fields that the check calls legal, opcode by opcode. -/
theorem isSome_decodeFields (f : Fields) : (decodeFields f).toOption.isSome = legal f.toWord := by
  rw [legal_toWord, decodeFields]
  split
  case h_3 hop =>
    rw [hop]
    cases hz : f.unusedZero { rd := true, imm := true } <;> by_cases hlen : f.imm.toNat ≤ 256 <;>
      simp [fieldUses, hz, hlen, Except.toOption]
  case h_21 =>
    simp_all [fieldUses, Except.toOption]
  all_goals
    next hop => simp [hop, fieldUses, Fields.isSome_accept]

/-- R74: the words that decode are the legal ones. -/
theorem isSome_decode? (v : Word) : (decode? v).isSome = legal v := by
  rw [decode?_eq_toOption, decode, isSome_decodeFields, Fields.toWord_ofWord]

/-- R74: a word is legal when it decodes to some command. -/
theorem legal_iff_exists_decode {v : Word} : legal v = true ↔ ∃ i : Instr, decode v = .ok i := by
  simp only [← isSome_decode?, Option.isSome_iff_exists, Machine.decode?_eq_some]

/-- R74: the word of a well-formed command is legal. -/
theorem legal_encode {i : Instr} (hwf : i.wellFormed = true) : legal (encode i) = true :=
  legal_iff_exists_decode.mpr ⟨i, decode_encode hwf⟩

end Sys2Proof
end

section
/-! STATUS bit by bit (spec R29, R181, R190): what raising, completing and a host's write do to the bits of the
flags. -/

namespace Sys2Proof.Machine

/-- R29: bit b of STATUS as the flags hold it, 0 at BUSY and at the reserved bits. -/
def StatusFlags.bit (f : StatusFlags) : Nat → Bool
  | 1 => f.done
  | 2 => f.dz
  | 3 => f.malf
  | 4 => f.idx
  | 5 => f.ill
  | 6 => f.ovr
  | 7 => f.acc
  | _ => false

/-- R29: the bits of the STATUS word. -/
theorem State.getLsbD_statusWord (s : State) (b : Nat) :
    s.statusWord.getLsbD b = if b = 0 then s.busy else s.flags.bit b := by
  simp only [State.statusWord, BitVec.getLsbD_setWidth, BitVec.getLsbD_append]
  match b with
  | 0 | 1 | 2 | 3 | 4 | 5 | 6 | 7 => simp [StatusFlags.bit]
  | k + 8 => simp [StatusFlags.bit]

/-- R181: raising a condition sets its bit and no other. -/
theorem StatusFlags.bit_set (f : StatusFlags) (c : Condition) (b : Nat) :
    (f.set c).bit b = (f.bit b || b == c.code) := by
  unfold StatusFlags.bit
  split <;> cases c <;> simp_all [StatusFlags.set, Condition.code]

/-- R29, R190: a host's write of w clears the flags whose bit w has set. -/
theorem StatusFlags.bit_clear (f : StatusFlags) (w : Word) (b : Nat) :
    (f.clear w).bit b = (f.bit b && !w.getLsbD b) := by
  unfold StatusFlags.bit
  split <;> simp [StatusFlags.clear]

/-- R29: setting DONE sets bit 1 and no other. -/
theorem StatusFlags.bit_done (f : StatusFlags) (b : Nat) :
    StatusFlags.bit { f with done := true } b = (f.bit b || b == 1) := by
  unfold StatusFlags.bit
  split <;> simp_all

/-- R29: every flag set in `f` is set in `g`. -/
def StatusFlags.Kept (f g : StatusFlags) : Prop := ∀ b : Nat, f.bit b = true → g.bit b = true

theorem StatusFlags.Kept.refl (f : StatusFlags) : f.Kept f := fun _ hb => hb

theorem StatusFlags.Kept.trans {f g h : StatusFlags} (hfg : f.Kept g) (hgh : g.Kept h) : f.Kept h :=
  fun b hb => hgh b (hfg b hb)

theorem StatusFlags.kept_set (f : StatusFlags) (c : Condition) : f.Kept (f.set c) :=
  fun b hb => by rw [bit_set, hb, Bool.true_or]

theorem StatusFlags.kept_done (f : StatusFlags) : f.Kept { f with done := true } :=
  fun b hb => by rw [bit_done, hb, Bool.true_or]

end Sys2Proof.Machine
end

section
/-! The completion step of a command (spec R32, R100): what every command leaves as it was. -/

namespace Sys2Proof.Machine

/-- R181: the conditions a command's completion may raise; the others are the port's. -/
def Condition.ofCommand : Condition → Bool
  | .divByZero | .malformed | .badIndex => true
  | .illegal | .overrun | .badAccess => false

/-- R100: `t` is `s` but for what the command `i` may write: its destination registers, RESULT if it writes it, and
flags, of which none is cleared and ILL, OVR and ACC are not touched. -/
structure Writes (i : Instr) (s t : State) : Prop where
  frame  : t = { s with x := t.x, result := t.result, flags := t.flags }
  regs   : ∀ r : RegIdx, r ∉ i.dests → t.x[r] = s.x[r]
  result : i.writesResult = false → t.result = s.result
  kept   : s.flags.Kept t.flags
  ill    : t.flags.ill = s.flags.ill
  ovr    : t.flags.ovr = s.flags.ovr
  acc    : t.flags.acc = s.flags.acc

/-- R181: such a condition leaves the port's flags ILL, OVR and ACC as they were. -/
theorem StatusFlags.set_ofCommand (f : StatusFlags) {c : Condition} (hc : c.ofCommand = true) :
    (f.set c).ill = f.ill ∧ (f.set c).ovr = f.ovr ∧ (f.set c).acc = f.acc := by
  cases c with
  | divByZero | malformed | badIndex => exact ⟨rfl, rfl, rfl⟩
  | illegal | overrun | badAccess => cases hc

variable {i : Instr} {s t : State}

theorem Writes.refl (i : Instr) (s : State) : Writes i s s :=
  ⟨rfl, fun _ _ => rfl, fun _ => rfl, .refl _, rfl, rfl, rfl⟩

theorem Writes.setReg (h : Writes i s t) {r : RegIdx} (hr : r ∈ i.dests) (v : FixedInt) :
    Writes i s (t.setReg r v) where
  frame := by rw [h.frame]; rfl
  regs q hq := by
    have hqr : q ≠ r := fun e => hq (e ▸ hr)
    exact (t.reg_setReg_of_ne hqr v).trans (h.regs q hq)
  result := h.result
  kept := h.kept
  ill := h.ill
  ovr := h.ovr
  acc := h.acc

theorem Writes.setResult (h : Writes i s t) (hw : i.writesResult = true) (v : Word) : Writes i s (t.setResult v) where
  frame := by rw [h.frame]; rfl
  regs := h.regs
  result hn := by rw [hw] at hn; cases hn
  kept := h.kept
  ill := h.ill
  ovr := h.ovr
  acc := h.acc

theorem Writes.raiseIf (h : Writes i s t) (b : Bool) {c : Condition} (hc : c.ofCommand = true) :
    Writes i s (t.raiseIf b c) := by
  cases b with
  | false => exact h
  | true =>
    obtain ⟨hill, hovr, hacc⟩ := t.flags.set_ofCommand hc
    exact
      { frame := by rw [h.frame]; rfl
        regs := h.regs
        result := h.result
        kept := h.kept.trans (t.flags.kept_set c)
        ill := hill.trans h.ill
        ovr := hovr.trans h.ovr
        acc := hacc.trans h.acc }

/-- R32: every command completes: its meaning is some writes it may do, then the end of the completion step. -/
theorem exec_writes (i : Instr) (s : State) : ∃ t : State, exec i s = .next t.complete ∧ Writes i s t := by
  have start := Writes.refl i s
  cases i with
  | cmp rs1 rs2 => exact ⟨_, rfl, start.setResult rfl _⟩
  | bitlen rs1 => exact ⟨_, rfl, start.setResult rfl _⟩
  | getbit rs1 k => exact ⟨_, rfl, start.setResult rfl _⟩
  | ldwl rd len =>
    exact ⟨_, rfl, ((start.setReg (List.mem_singleton_self rd) _).raiseIf _ rfl).raiseIf _ rfl⟩
  | divmod rd r4 rs1 rs2 =>
    have hr4 : r4 ∈ [rd, r4] := .tail rd (List.mem_singleton_self r4)
    exact ⟨_, rfl, ((start.setReg List.mem_cons_self _).setReg hr4 _).raiseIf _ rfl⟩
  | lcm rd rs1 rs2 =>
    have hrd := List.mem_singleton_self rd
    simp only [exec, execLcm]
    split
    · exact ⟨_, rfl, start.setReg hrd _⟩
    · exact ⟨_, rfl, (start.setReg hrd _).raiseIf _ rfl⟩
  | bmu rd rs1 => exact ⟨_, rfl, (start.setReg (List.mem_singleton_self rd) _).raiseIf _ rfl⟩
  | bred rd rs1 rs2 rs3 => exact ⟨_, rfl, (start.setReg (List.mem_singleton_self rd) _).raiseIf _ rfl⟩
  | powmod rd rs1 rs2 rs3 r4 => exact ⟨_, rfl, (start.setReg (List.mem_singleton_self rd) _).raiseIf _ rfl⟩
  | _ rd => exact ⟨_, rfl, start.setReg (List.mem_singleton_self rd) _⟩

theorem writes_of_exec (he : exec i s = .next t) : ∃ u : State, t = u.complete ∧ Writes i s u := by
  obtain ⟨u, hu, hw⟩ := exec_writes i s
  cases he.symm.trans hu
  exact ⟨u, rfl, hw⟩

theorem Writes.pb (h : Writes i s t) : t.pb = s.pb := by rw [h.frame]
theorem Writes.cmdLast (h : Writes i s t) : t.cmdLast = s.cmdLast := by rw [h.frame]
theorem Writes.ie (h : Writes i s t) : t.ie = s.ie := by rw [h.frame]
theorem Writes.pending (h : Writes i s t) : t.pending = s.pending := by rw [h.frame]
theorem Writes.inputs (h : Writes i s t) : t.inputs = s.inputs := by rw [h.frame]
theorem Writes.readData (h : Writes i s t) : t.readData = s.readData := by rw [h.frame]

theorem Writes.kept_complete (h : Writes i s t) : s.flags.Kept t.complete.flags := h.kept.trans t.flags.kept_done

/-- Settles O31: a command's meaning is writes inside its frame, and the end of the completion step, which clears busy
and sets DONE, leaves that frame. -/
theorem commandWritesOnlyWhatItNames : Obligations.CommandWritesOnlyWhatItNames := by
  intro i s
  obtain ⟨t, he, hw⟩ := exec_writes i s
  exact ⟨t.complete, he, hw.regs, hw.result, hw.pb, hw.cmdLast, hw.ie, hw.pending, hw.inputs, hw.readData, rfl, rfl,
    hw.ill, hw.ovr, hw.acc, hw.kept_complete 2, hw.kept_complete 3, hw.kept_complete 4⟩

end Sys2Proof.Machine
end

section
/-! The port and the step by effect (spec R25, R51 to R60): what a host's write and a step can do, as lists of cases. -/

namespace Sys2Proof.Machine

/-- R51, R53, R54: the offset of a place; of the reserved places, which have no one offset, the first. -/
def Place.offset : Place → Nat
  | .id => 0x000
  | .cfg => 0x004
  | .cmd => 0x008
  | .status => 0x00C
  | .result => 0x010
  | .ie => 0x014
  | .reserved => 0x018
  | .pair m => pairOffset m
  | .window r j => windowOffset r j

/-- R51: the address map gives each place that is not reserved at its own offset only. -/
theorem offset_placeOf {off : Nat} (h4 : off % 4 = 0) (hlt : off < 4096) (hr : placeOf off ≠ .reserved) :
    (placeOf off).offset = off := by
  rcases Nat.lt_or_ge off 0x018 with hctl | hctl
  · have hoff : off = 0x000 ∨ off = 0x004 ∨ off = 0x008 ∨ off = 0x00C ∨ off = 0x010 ∨ off = 0x014 := by omega
    rcases hoff with rfl | rfl | rfl | rfl | rfl | rfl <;> rfl
  · rcases Nat.lt_or_ge off 0x400 with hres | hres
    · exact absurd (placeOf_reserved hctl hres) hr
    · rcases Nat.lt_or_ge off 0x800 with hpb | hwin
      · rw [placeOf_pair hres hpb]
        simp only [Place.offset, pairOffset, Fin.val_ofNat]
        omega
      · rw [placeOf_window hwin]
        simp only [Place.offset, windowOffset, Fin.val_ofNat]
        omega

/-- R52, R55: a 32-bit access of a control or reserved offset is served, busy or idle. -/
theorem State.serves_control (s : State) {off : Nat} (h4 : off % 4 = 0) (hlow : off < 0x400) :
    s.serves .word (hostAddress off) = true := by
  rw [serves_iff, offsetOf_hostAddress (by omega)]
  exact ⟨rfl, h4, fun _ => hlow⟩

theorem State.hostRead_control (s : State) {off : Nat} (h4 : off % 4 = 0) (hlow : off < 0x400) :
    s.hostRead .word (hostAddress off) = { s with readData := s.readPlace (placeOf off) } := by
  rw [hostRead, s.serves_control h4 hlow, offsetOf_hostAddress (by omega), cond_true]

theorem State.hostWrite_control (s : State) (v : Word) {off : Nat} (h4 : off % 4 = 0) (hlow : off < 0x400) :
    s.hostWrite .word (hostAddress off) v = s.writePlace v (placeOf off) := by
  rw [hostWrite, s.serves_control h4 hlow, offsetOf_hostAddress (by omega), cond_true]

/-- R25, R52 to R56: what a host's write of `v` can do, with the place it was for where a later proof needs it. -/
inductive WriteEffect (s : State) (width : AccessWidth) (addr : Nat) (v : Word) : State → Prop
  /-- refused, or a CMD write while busy -/
  | raised (c : Condition) : WriteEffect s width addr v (s.raise c)
  | ignored : WriteEffect s width addr v s
  | accepted : legal v = true → WriteEffect s width addr v (s.accept v)
  | rejected : s.busy = false → WriteEffect s width addr v (s.rejectIllegal v)
  | cleared : width = .word → offsetOf addr = 0x00C → WriteEffect s width addr v (s.clearFlags v)
  | enabled : WriteEffect s width addr v (s.setIe v)
  | pair (m : Fin 256) : width = .word → s.busy = false → offsetOf addr = pairOffset m →
      WriteEffect s width addr v (s.setPair m v)
  | window (r : RegIdx) (j : Fin 64) : width = .word → s.busy = false → offsetOf addr = windowOffset r j →
      WriteEffect s width addr v (s.setRegWord r j v)

/-- R32: a CMD write is dropped, accepted or reported. -/
theorem WriteEffect.issue (s : State) (width : AccessWidth) (addr : Nat) (v : Word) :
    WriteEffect s width addr v (s.issue v) := by
  rcases s.issue_cases v with ⟨-, he⟩ | ⟨-, hl, he⟩ | ⟨hb, -, he⟩
  · exact he ▸ .raised .overrun
  · exact he ▸ .accepted hl
  · exact he ▸ .rejected hb

theorem State.hostWrite_effect (s : State) (width : AccessWidth) (addr : Nat) (v : Word) :
    WriteEffect s width addr v (s.hostWrite width addr v) := by
  rcases s.hostWrite_cases width addr v with ⟨hs, he⟩ | ⟨-, he⟩
  case inr => exact he ▸ .raised .badAccess
  rw [he]
  obtain ⟨hword, h4, hopen⟩ := (s.serves_iff width addr).mp hs
  have hoff := offset_placeOf h4 (offsetOf_lt addr)
  have hidle (hhigh : 0x400 ≤ offsetOf addr) : s.busy = false := by
    cases hb : s.busy with
    | false => rfl
    | true => exact absurd (hopen hb) (Nat.not_lt.mpr hhigh)
  cases hp : placeOf (offsetOf addr) with
  | id | cfg | result | reserved => exact .ignored
  | cmd => exact .issue s width addr v
  | ie => exact .enabled
  | status =>
    rw [hp] at hoff
    exact .cleared hword (hoff nofun).symm
  | pair m =>
    rw [hp] at hoff
    have hm : offsetOf addr = pairOffset m := (hoff nofun).symm
    exact .pair m hword (hidle (by rw [hm, pairOffset]; omega)) hm
  | window r j =>
    rw [hp] at hoff
    have hrj : offsetOf addr = windowOffset r j := (hoff nofun).symm
    exact .window r j hword (hidle (by rw [hrj, windowOffset]; omega)) hrj

theorem step_of_no_input {s : State} (hin : s.inputs = []) : step s = engineTurn s := by
  rw [step, hin]

theorem step_of_input {s : State} {e : Input} {rest : List Input} (hin : s.inputs = e :: rest) :
    step s = takeInput e { s with inputs := rest } := by
  rw [step, hin]

theorem engineTurn_of_idle {s : State} (hb : s.busy = false) : engineTurn s = .next s := by
  rw [engineTurn, hb, cond_false]

theorem engineTurn_of_busy {s : State} {i : Instr} (hb : s.busy = true) (hd : decode s.pending = .ok i) :
    engineTurn s = exec i s := by
  rw [engineTurn, hb, cond_true, decode?_eq_some.mpr hd]

/-- The engine's turn is next: it is the next input, or there is none left (log entry 2). -/
def State.TurnNext (s : State) : Prop := s.inputs = [] ∨ ∃ rest : List Input, s.inputs = .engine :: rest

/-- R60, R207: what a step can do. -/
inductive StepEffect (s : State) : State → Prop
  | idleTurn : s.busy = false → StepEffect s { s with inputs := s.inputs.tail }
  | completed (i : Instr) (u : State) : s.busy = true → s.TurnNext → decode s.pending = .ok i →
      Writes i { s with inputs := s.inputs.tail } u → StepEffect s u.complete
  | readServed (d : Word) : StepEffect s { s with inputs := s.inputs.tail, readData := d }
  | readRefused : StepEffect s { s.raise .badAccess with inputs := s.inputs.tail, readData := 0 }
  | written (width : AccessWidth) (addr : Nat) (v : Word) (rest : List Input) (t : State) :
      s.inputs = .write width addr v :: rest → WriteEffect { s with inputs := rest } width addr v t → StepEffect s t
  | reset (rest : List Input) : s.inputs = .reset :: rest →
      StepEffect s (State.resetBlock { s with inputs := rest })

/-- R32: the engine's turn is an idle one or completes the pending command, if it does not stop the machine. -/
theorem stepEffect_of_engineTurn {s t : State} (hturn : s.TurnNext)
    (he : engineTurn { s with inputs := s.inputs.tail } = .next t) : StepEffect s t := by
  rcases engineTurn_cases { s with inputs := s.inputs.tail } with ⟨hb, hn⟩ | ⟨hb, i, hd, hn⟩ | ⟨-, -, hn⟩
  · cases he.symm.trans hn
    exact .idleTurn hb
  · obtain ⟨u, rfl, hw⟩ := writes_of_exec (hn.symm.trans he)
    exact .completed i u hb hturn (decode?_eq_some.mp hd) hw
  · cases he.symm.trans hn

theorem step_effect {s t : State} (hstep : step s = .next t) : StepEffect s t := by
  cases hin : s.inputs with
  | nil =>
    have hs : s = { s with inputs := s.inputs.tail } := by rw [hin]; cases s; cases hin; rfl
    rw [step_of_no_input hin, hs] at hstep
    exact stepEffect_of_engineTurn (.inl hin) hstep
  | cons e rest =>
    have htail : s.inputs.tail = rest := by rw [hin, List.tail_cons]
    rw [step_of_input hin] at hstep
    cases e with
    | engine => exact stepEffect_of_engineTurn (.inr ⟨rest, hin⟩) (htail ▸ hstep)
    | reset =>
      cases hstep
      exact .reset rest hin
    | write width addr v =>
      cases hstep
      exact .written width addr v rest _ hin (State.hostWrite_effect _ width addr v)
    | read width addr =>
      cases hstep
      rcases State.hostRead_cases { s with inputs := rest } width addr with ⟨-, he⟩ | ⟨-, he⟩
      · exact he ▸ htail ▸ .readServed _
      · exact he ▸ htail ▸ .readRefused

end Sys2Proof.Machine
end

section
/-! The command protocol (spec R32): issue, the engine's turn, and the invariant that no step leaves. -/

namespace Sys2Proof.Machine

/-- R32: an idle state meets the invariant. -/
theorem State.protocolInv_of_idle {s : State} (hb : s.busy = false) : s.ProtocolInv :=
  fun hb' => absurd (hb.symm.trans hb') Bool.false_ne_true

/-- R32: a host's write keeps the invariant: what it makes pending is legal, and is the CMD read-back. -/
theorem WriteEffect.protocolInv {s t : State} {width : AccessWidth} {addr : Nat} {v : Word}
    (he : WriteEffect s width addr v t) (hinv : s.ProtocolInv) : t.ProtocolInv := by
  cases he with
  | accepted hl => exact fun _ => ⟨hl, rfl⟩
  | rejected hb => exact State.protocolInv_of_idle hb
  | raised | ignored | cleared | enabled | pair | window => exact hinv

/-- R32: every step keeps the invariant: reset and a completed command leave the block idle. -/
theorem StepEffect.protocolInv {s t : State} (he : StepEffect s t) (hinv : s.ProtocolInv) : t.ProtocolInv := by
  cases he with
  | completed => exact State.protocolInv_of_idle rfl
  | reset => exact State.protocolInv_of_idle rfl
  | written _ _ _ _ _ _ hw => exact hw.protocolInv hinv
  | idleTurn | readServed | readRefused => exact hinv

/-- R32, log entry 7: with a legal word pending, the engine's turn does not stop the machine. -/
theorem State.ProtocolInv.engineTurn_next {s : State} (hinv : s.ProtocolInv) :
    ∃ t : State, engineTurn s = .next t := by
  cases hb : s.busy with
  | false => exact ⟨s, engineTurn_of_idle hb⟩
  | true =>
    obtain ⟨i, hd⟩ := legal_iff_exists_decode.mp (hinv hb).1
    obtain ⟨t, he, -⟩ := exec_writes i s
    exact ⟨t.complete, (engineTurn_of_busy hb hd).trans he⟩

/-- R60: from a state of the protocol every step answers a next state. -/
theorem State.ProtocolInv.step_next {s : State} (hinv : s.ProtocolInv) : ∃ t : State, step s = .next t := by
  cases hin : s.inputs with
  | nil =>
    rw [step_of_no_input hin]
    exact hinv.engineTurn_next
  | cons e rest =>
    rw [step_of_input hin]
    cases e with
    | read | write | reset => exact ⟨_, rfl⟩
    | engine => exact State.ProtocolInv.engineTurn_next (s := { s with inputs := rest }) hinv

/-- Settles O12: a legal word decodes and every command completes, so the step answers; each effect of a step keeps the
invariant. -/
theorem protocolInvariantHoldsAndNoStepStops : Obligations.ProtocolInvariantHoldsAndNoStepStops := by
  intro s hinv
  obtain ⟨t, hstep⟩ := hinv.step_next
  exact ⟨t, hstep, (step_effect hstep).protocolInv hinv⟩

/-- Settles O13: reset is idle. -/
theorem resetMeetsTheProtocolInvariant : Obligations.ResetMeetsTheProtocolInvariant :=
  State.protocolInv_of_idle rfl

/-- Settles O6: either way the step is the engine's turn, and busy with a word that decodes it runs exec. -/
theorem stepRunsThePendingCommand : Obligations.StepRunsThePendingCommand := by
  intro s i rest hb hd
  constructor
  · intro hin
    rw [step_of_input hin]
    exact engineTurn_of_busy hb hd
  · intro hin
    rw [step_of_no_input hin, engineTurn_of_busy hb hd]

/-- Settles O11: either way the step is the engine's turn, which is idle. -/
theorem idleEngineTurnChangesNothing : Obligations.IdleEngineTurnChangesNothing := by
  intro s rest hb
  constructor
  · intro hin
    rw [step_of_input hin]
    exact engineTurn_of_idle hb
  · intro hin
    rw [step_of_no_input hin, engineTurn_of_idle hb]

/-- A word that names a command is placed as the accepted one, with the engine's turn next (log entry 4). -/
theorem placeCommand_of_decode? {s : State} {v : Word} {i : Instr} (hd : decode? v = some i) :
    placeCommand s v = { s.accept v with inputs := .engine :: s.inputs } := by
  rw [placeCommand, hd]

/-- Settles O7: placing makes the command pending, and the next input is the turn that runs it. -/
theorem placedCommandRunsNext : Obligations.PlacedCommandRunsNext := by
  intro s nbits w i hd
  rw [State.withFetchWord, placeCommand_of_decode? hd, step_of_input rfl]
  exact engineTurn_of_busy rfl (decode?_eq_some.mp hd)

/-- R32: a legal word written to CMD while idle is accepted. -/
theorem State.hostWrite_cmd_of_legal {s : State} {v : Word} (hb : s.busy = false) (hl : legal v = true) :
    s.hostWrite .word (hostAddress 0x008) v = s.accept v := by
  rw [s.hostWrite_control v (by decide) (by decide)]
  change s.issue v = s.accept v
  rw [issue, hb, hl, cond_false, cond_true]

/-- Settles O8: the word of a well-formed command is legal, so CMD accepts it, and it decodes to the command, so the
engine's turn runs it. -/
theorem issuedCommandIsExecuted : Obligations.IssuedCommandIsExecuted := by
  intro s i rest hb hwf hin
  refine ⟨_, rfl, ?_, ?_⟩
  · rw [step_of_input hin]
    exact congrArg Host.Outcome.next
      (State.hostWrite_cmd_of_legal (s := { s with inputs := .engine :: rest }) hb (legal_encode hwf))
  · rw [step_of_input rfl]
    exact engineTurn_of_busy rfl (decode_encode hwf)

end Sys2Proof.Machine
end

section
/-! What may change what, over all steps (spec R21 to R30, R190): each statement is read off the list of a step's
effects. -/

namespace Sys2Proof.Machine

variable {s t : State} {width : AccessWidth} {addr : Nat} {v : Word}

theorem WriteEffect.result (he : WriteEffect s width addr v t) : t.result = s.result := by
  cases he <;> rfl

/-- R29, R190: a host's write clears no flag but by a 1 written to its bit of STATUS. -/
theorem WriteEffect.kept_or_cleared (he : WriteEffect s width addr v t) :
    s.flags.Kept t.flags ∨ (width = .word ∧ offsetOf addr = 0x00C ∧ t.flags = s.flags.clear v) := by
  cases he with
  | raised c => exact .inl (s.flags.kept_set c)
  | rejected => exact .inl ((s.flags.kept_set .illegal).trans (StatusFlags.kept_done _))
  | cleared hword hoff => exact .inr ⟨hword, hoff, rfl⟩
  | ignored | accepted | enabled | pair | window => exact .inl (.refl _)

/-- R53: a host's write changes an operand register only while idle, at an offset of one of the register's words. -/
theorem WriteEffect.window_of_ne (he : WriteEffect s width addr v t) {r : RegIdx} (hne : t.x[r] ≠ s.x[r]) :
    width = .word ∧ s.busy = false ∧ ∃ j : Fin 64, offsetOf addr = windowOffset r j := by
  cases he with
  | window q j hword hb hoff =>
    have hqr : r = q := by
      by_contra hrq
      exact hne (s.reg_setReg_of_ne hrq _)
    exact ⟨hword, hb, j, hqr ▸ hoff⟩
  | raised | ignored | accepted | rejected | cleared | enabled | pair => exact absurd rfl hne

/-- R54: a host's write changes a pair buffer word only while idle, at the word's offset. -/
theorem WriteEffect.pair_of_ne (he : WriteEffect s width addr v t) {m : Fin 256} (hne : t.pb[m] ≠ s.pb[m]) :
    width = .word ∧ s.busy = false ∧ offsetOf addr = pairOffset m := by
  cases he with
  | pair k hword hb hoff =>
    have hkm : m = k := by
      by_contra hmk
      exact hne (Vector.getElem_set_ne k.isLt m.isLt fun e => hmk (Fin.ext e.symm))
    exact ⟨hword, hb, hkm ▸ hoff⟩
  | raised | ignored | accepted | rejected | cleared | enabled | window => exact absurd rfl hne

/-- R29, R190: only reset and a host's write to STATUS clear a flag. -/
theorem StepEffect.kept_or_cleared (he : StepEffect s t) : s.flags.Kept t.flags ∨
    (∃ rest : List Input, s.inputs = .reset :: rest) ∨
    ∃ (addr : Nat) (w : Word) (rest : List Input), s.inputs = .write .word addr w :: rest ∧
      offsetOf addr = 0x00C ∧ t.flags = s.flags.clear w := by
  cases he with
  | completed _ _ _ _ _ hw => exact .inl hw.kept_complete
  | readRefused => exact .inl (s.flags.kept_set .badAccess)
  | reset rest hin => exact .inr (.inl ⟨rest, hin⟩)
  | written width addr v rest t hin hw =>
    rcases hw.kept_or_cleared with hk | ⟨rfl, hoff, hfl⟩
    · exact .inl hk
    · exact .inr (.inr ⟨addr, v, rest, hin, hoff, hfl⟩)
  | idleTurn | readServed => exact .inl (.refl _)

/-- Settles O28: a flag that was set and is not kept was cleared by reset or by a 1 in its bit of the word written. -/
theorem onlyHostOrResetClearsAFlag : Obligations.OnlyHostOrResetClearsAFlag := by
  intro s t b hb1 hstep hset hclr
  have hb0 : b ≠ 0 := Nat.one_le_iff_ne_zero.mp hb1
  rw [State.getLsbD_statusWord, if_neg hb0] at hset hclr
  rcases (step_effect hstep).kept_or_cleared with hk | ⟨rest, hin⟩ | ⟨addr, w, rest, hin, hoff, hfl⟩
  · exact absurd (hclr.symm.trans (hk b hset)) Bool.false_ne_true
  · exact ⟨rest, .inl hin⟩
  · have hw : w.getLsbD b = true := by
      rw [hfl, StatusFlags.bit_clear, hset, Bool.true_and] at hclr
      exact by simpa using hclr
    exact ⟨rest, .inr ⟨addr, w, hin, hoff, hw⟩⟩

/-- Settles O29: of a step's effects, only reset and a completed command touch RESULT, and the command only if it
writes it. -/
theorem onlyScalarCommandsChangeResult : Obligations.OnlyScalarCommandsChangeResult := by
  intro s t hstep hne
  cases step_effect hstep with
  | reset rest hin => exact .inl ⟨rest, hin⟩
  | completed i u hb hturn hd hw =>
    exact .inr ⟨hb, rfl, hturn, i, hd, (Bool.eq_false_or_eq_true _).resolve_right fun h => hne (hw.result h)⟩
  | written _ _ _ _ _ _ hw => exact absurd hw.result hne
  | idleTurn | readServed | readRefused => exact absurd rfl hne

/-- Settles O30: of a step's effects, only reset, a completed command that names the register and an idle host write to
the place change an operand register or a pair buffer word. -/
theorem operandsChangeOnlyWhereNamed : Obligations.OperandsChangeOnlyWhereNamed := by
  intro s t hstep
  have he := step_effect hstep
  constructor
  · intro r hne
    cases he with
    | reset rest hin => exact .inl ⟨rest, hin⟩
    | completed i u hb hturn hd hw =>
      exact .inr (.inl ⟨hb, rfl, hturn, i, hd, by_contra fun hr => hne (hw.regs r hr)⟩)
    | written width addr v rest t hin hw =>
      obtain ⟨rfl, hb, j, hoff⟩ := hw.window_of_ne hne
      exact .inr (.inr ⟨hb, addr, v, j, rest, hin, hoff⟩)
    | idleTurn | readServed | readRefused => exact absurd rfl hne
  · intro m hne
    cases he with
    | reset rest hin => exact .inl ⟨rest, hin⟩
    | completed i u hb hturn hd hw => exact absurd (congrArg (·[m]) hw.pb) hne
    | written width addr v rest t hin hw =>
      obtain ⟨rfl, hb, hoff⟩ := hw.pair_of_ne hne
      exact .inr ⟨hb, addr, v, rest, hin, hoff⟩
    | idleTurn | readServed | readRefused => exact absurd rfl hne

/-- R57, R100: a command leaves every place's word but STATUS, RESULT if it writes it, and the window of its
destinations. -/
theorem Writes.readPlace_complete {i : Instr} (hw : Writes i s t) (p : Place) (hst : p ≠ .status)
    (hres : p = .result → i.writesResult = false) (hwin : ∀ r j, p = .window r j → r ∉ i.dests) :
    t.complete.readPlace p = s.readPlace p := by
  cases p with
  | id | cfg | reserved => rfl
  | status => exact absurd rfl hst
  | cmd => exact hw.cmdLast
  | result => exact hw.result (hres rfl)
  | ie => rw [State.readPlace, State.readPlace, State.ieWord, State.ieWord, State.complete_ie, hw.ie]
  | pair m => exact congrArg (·[m]) hw.pb
  | window r j => exact congrArg (wordOf · j.val) (hw.regs r (hwin r j rfl))

/-- Settles O32: a byte is part of the word of its place, and the offsets left out are those of the places a command
may write. -/
theorem commandStoresNoOtherByte : Obligations.CommandStoresNoOtherByte := by
  intro i s t off he hlt hst hres hwin
  obtain ⟨u, rfl, hw⟩ := writes_of_exec he
  have hoff (p : Place) (hr : p ≠ .reserved) (hp : placeOf (off - off % 4) = p) : p.offset = off - off % 4 :=
    hp ▸ offset_placeOf (by omega) (by omega) (hp ▸ hr)
  refine congrArg (·.extractLsb' (8 * (off % 4)) 8) (hw.readPlace_complete _ ?_ ?_ ?_)
  · intro hp
    have := hoff .status nofun hp
    rw [Place.offset] at this
    omega
  · intro hp
    have := hoff .result nofun hp
    rw [Place.offset] at this
    cases hwr : i.writesResult with
    | false => rfl
    | true => exact absurd ⟨hwr, by omega, by omega⟩ hres
  · intro r j hp hr
    have := hoff (.window r j) nofun hp
    rw [Place.offset, windowOffset] at this
    have hj := j.isLt
    exact hwin r hr ⟨by omega, by omega⟩

end Sys2Proof.Machine
end

section
/-! Reset and the control registers (spec R26 to R31, R36). -/

namespace Sys2Proof.Machine

/-- Settles O15: every field but the inputs and the host's last read word is that of the reset state. -/
theorem resetClearsTheBlockAtAnyTime : Obligations.ResetClearsTheBlockAtAnyTime := by
  intro s rest hin
  have hx (r : RegIdx) : State.reset.x[r] = 0 := Vector.getElem_replicate _
  have hpb (m : Fin 256) : State.reset.pb[m] = 0 := Vector.getElem_replicate _
  have hstatus : State.reset.statusWord = 0 := rfl
  have hie : State.reset.ieWord = 0 := rfl
  exact ⟨_, step_of_input hin, hx, hpb, rfl, hstatus, rfl, hie, rfl, rfl, rfl, rfl⟩

/-- Settles O16: the pair buffer's words and the registers, so the registers' words too, are 0; the rest is fixed. -/
theorem resetValuesReadAsTheSpecLists : Obligations.ResetValuesReadAsTheSpecLists := by
  refine ⟨fun m => ?_, fun r j => ?_, rfl, rfl, rfl, rfl, rfl, rfl, rfl, rfl⟩
  · rw [placeOf_pairOffset]
    exact Vector.getElem_replicate _
  · rw [placeOf_windowOffset]
    have hzero : State.reset.reg r = 0 := Vector.getElem_replicate _
    rw [State.readPlace, hzero]
    exact BitVec.extractLsb'_zero

/-- Settles O24: the control offsets are served in every state, and each reads its place's word. -/
theorem identificationReadsConstants : Obligations.IdentificationReadsConstants := by
  intro s
  have hread (off : Nat) (h4 : off % 4 = 0) (hlow : off < 0x400) := s.hostRead_control h4 hlow
  exact ⟨hread 0x000 rfl (by decide), hread 0x004 rfl (by decide), hread 0x008 rfl (by decide),
    hread 0x00C rfl (by decide), hread 0x010 rfl (by decide), hread 0x014 rfl (by decide)⟩

/-- R31: the bits of the IE word. -/
theorem State.getLsbD_ieWord (s : State) (b : Nat) :
    s.ieWord.getLsbD b = if b = 0 then s.ie.doneIe else if b = 1 then s.ie.errIe else false := by
  simp only [State.ieWord, BitVec.getLsbD_setWidth, BitVec.getLsbD_append]
  match b with
  | 0 | 1 => simp
  | k + 2 => simp

/-- R31: after a write of w, IE reads the two low bits of w. -/
theorem State.ieWord_setIe (s : State) (w : Word) : (s.setIe w).ieWord = w &&& 3 := by
  apply BitVec.eq_of_getLsbD_eq
  intro b hb
  rw [getLsbD_ieWord, BitVec.getLsbD_and]
  match b with
  | 0 | 1 => simp [InterruptEnable.ofWord]
  | k + 2 => simp [BitVec.getLsbD_ofNat, Nat.testBit_succ]

/-- Settles O25: the write is served in every state and sets IE, whose word then reads as the low bits of w. -/
theorem interruptEnableWrite : Obligations.InterruptEnableWrite := by
  refine ⟨rfl, fun s w => ⟨s.setIe w, ?_, rfl, ?_, rfl⟩⟩
  · exact s.hostWrite_control w rfl (by decide)
  · rw [← s.ieWord_setIe w]
    exact (s.setIe w).hostRead_control rfl (by decide)

/-- R29, R190: the STATUS word after a write of w, bits 1 to 7 of w cleared. -/
theorem State.statusWord_clearFlags (s : State) (w : Word) :
    (s.clearFlags w).statusWord = s.statusWord &&& ~~~(w &&& 0xFE) := by
  apply BitVec.eq_of_getLsbD_eq
  intro b hb
  simp only [BitVec.getLsbD_and, BitVec.getLsbD_not, hb, decide_true, Bool.true_and, getLsbD_statusWord,
    clearFlags_busy, clearFlags_flags, StatusFlags.bit_clear]
  match b with
  | 0 | 1 | 2 | 3 | 4 | 5 | 6 | 7 => simp
  | k + 8 => simp [StatusFlags.bit]

/-- Settles O22: the word's bits are the flags' bits, and the write, served in every state, clears flags only. -/
theorem statusBitsAndWriteOneToClear : Obligations.StatusBitsAndWriteOneToClear := by
  intro s w
  have hbit := s.getLsbD_statusWord
  refine ⟨⟨hbit 0, hbit 1, hbit 2, hbit 3, hbit 4, hbit 5, hbit 6, hbit 7, ?_⟩, s.clearFlags w, ?_, ?_, rfl⟩
  · intro b hb
    obtain ⟨k, rfl⟩ := Nat.exists_eq_add_of_le' hb
    exact hbit (k + 8)
  · exact s.hostWrite_control w rfl (by decide)
  · exact s.statusWord_clearFlags w

end Sys2Proof.Machine
end

section
/-! The port's accesses as equations (spec R52 to R59): what is served and what is refused, the window and the pair
buffer while idle, and which accesses repeat without effect. -/

namespace Sys2Proof.Machine

/-- R52, R55: what the block refuses. -/
theorem State.serves_eq_false_iff (s : State) (width : AccessWidth) (addr : Nat) : s.serves width addr = false ↔
    width ≠ .word ∨ offsetOf addr % 4 ≠ 0 ∨ (s.busy = true ∧ 0x400 ≤ offsetOf addr) := by
  rw [← Bool.not_eq_true, serves_iff]
  simp only [not_and_or, Classical.not_imp, Nat.not_lt, ne_eq]

/-- R55: of the state, only `busy` decides what is served. -/
theorem State.serves_congr {s t : State} (hb : s.busy = t.busy) (width : AccessWidth) (addr : Nat) :
    s.serves width addr = t.serves width addr := by
  rw [serves, serves, closed, closed, hb]

/-- R52, R55: a served read takes the word of its place and changes nothing of the block. -/
theorem State.hostRead_of_serves {s : State} {width : AccessWidth} {addr : Nat} (h : s.serves width addr = true) :
    s.hostRead width addr = { s with readData := s.readPlace (placeOf (offsetOf addr)) } := by
  rw [hostRead, h, cond_true]

/-- R52, R55, R187: a refused read returns 0 and sets ACC. -/
theorem State.hostRead_of_refused {s : State} {width : AccessWidth} {addr : Nat} (h : s.serves width addr = false) :
    s.hostRead width addr = { s with flags := { s.flags with acc := true }, readData := 0 } := by
  rw [hostRead, h, cond_false]
  rfl

theorem State.hostWrite_of_serves {s : State} {width : AccessWidth} {addr : Nat} (v : Word)
    (h : s.serves width addr = true) : s.hostWrite width addr v = s.writePlace v (placeOf (offsetOf addr)) := by
  rw [hostWrite, h, cond_true]

/-- R52, R55, R187: a refused write sets ACC and does nothing else. -/
theorem State.hostWrite_of_refused {s : State} {width : AccessWidth} {addr : Nat} (v : Word)
    (h : s.serves width addr = false) :
    s.hostWrite width addr v = { s with flags := { s.flags with acc := true } } := by
  rw [hostWrite, h, cond_false]
  rfl

/-- Settles O21: such an access is refused in every state. -/
theorem narrowOrMisalignedAccessIsRefused : Obligations.NarrowOrMisalignedAccessIsRefused := by
  intro s w addr v h
  have hs : s.serves w addr = false := (s.serves_eq_false_iff w addr).mpr (h.imp_right .inl)
  exact ⟨State.hostRead_of_refused hs, State.hostWrite_of_refused v hs⟩

/-- Settles O20: while busy an access from 0x400 on is refused, and an aligned one below is served. -/
theorem windowAndPairBufferCloseWhileBusy : Obligations.WindowAndPairBufferCloseWhileBusy := by
  intro s w addr v hb
  constructor
  · intro hhigh
    have hs : s.serves w addr = false := (s.serves_eq_false_iff w addr).mpr (.inr (.inr ⟨hb, hhigh⟩))
    exact ⟨State.hostRead_of_refused hs, State.hostWrite_of_refused v hs⟩
  · intro hlow h4
    have hs : s.serves .word addr = true := (s.serves_iff .word addr).mpr ⟨rfl, h4, fun _ => by omega⟩
    exact ⟨State.hostRead_of_serves hs, State.hostWrite_of_serves v hs⟩

/-- Settles O23: these offsets are served in every state, and their places ignore a write. -/
theorem reservedAndReadOnlyWritesAreIgnored : Obligations.ReservedAndReadOnlyWritesAreIgnored := by
  intro s off v h4 hlow
  rw [s.hostWrite_control v h4 hlow]
  constructor
  · intro hres
    rw [s.hostRead_control h4 hlow, placeOf_reserved hres hlow]
    exact ⟨rfl, rfl⟩
  · rintro (rfl | rfl | rfl) <;> rfl

/-- R52, R55: while idle an aligned 32-bit access is served at every offset. -/
theorem State.serves_of_idle {s : State} (hb : s.busy = false) {off : Nat} (h4 : off % 4 = 0) (hlt : off < 4096) :
    s.serves .word (hostAddress off) = true := by
  rw [serves_iff, offsetOf_hostAddress hlt, hb]
  exact ⟨rfl, h4, nofun⟩

theorem State.hostRead_of_idle {s : State} (hb : s.busy = false) {off : Nat} (h4 : off % 4 = 0) (hlt : off < 4096) :
    s.hostRead .word (hostAddress off) = { s with readData := s.readPlace (placeOf off) } := by
  rw [hostRead_of_serves (serves_of_idle hb h4 hlt), offsetOf_hostAddress hlt]

theorem State.hostWrite_of_idle {s : State} (hb : s.busy = false) (v : Word) {off : Nat} (h4 : off % 4 = 0)
    (hlt : off < 4096) : s.hostWrite .word (hostAddress off) v = s.writePlace v (placeOf off) := by
  rw [hostWrite_of_serves v (serves_of_idle hb h4 hlt), offsetOf_hostAddress hlt]

theorem pairOffset_aligned (m : Fin 256) : pairOffset m % 4 = 0 := by
  rw [pairOffset]
  omega

theorem pairOffset_lt (m : Fin 256) : pairOffset m < 4096 := by
  have hm := m.isLt
  rw [pairOffset]
  omega

theorem windowOffset_aligned (r : RegIdx) (j : Fin 64) : windowOffset r j % 4 = 0 := by
  rw [windowOffset]
  omega

theorem windowOffset_lt (r : RegIdx) (j : Fin 64) : windowOffset r j < 4096 := by
  have hr := r.isLt
  have hj := j.isLt
  rw [windowOffset]
  omega

/-- Settles O19: the access is served, and its place is the pair buffer's word m. -/
theorem pairBufferReadsAndWrites : Obligations.PairBufferReadsAndWrites := by
  intro s m v hb
  have hread := State.hostRead_of_idle hb (pairOffset_aligned m) (pairOffset_lt m)
  have hwrite := State.hostWrite_of_idle hb v (pairOffset_aligned m) (pairOffset_lt m)
  rw [placeOf_pairOffset] at hread hwrite
  exact ⟨hread, hwrite⟩

/-- R8: word j of a value, as the low word of the value shifted down by j words. -/
theorem wordOf_eq_ofNat (a : FixedInt) (j : Nat) : wordOf a j = BitVec.ofNat 32 (a.toNat / 2 ^ (32 * j)) := by
  apply BitVec.eq_of_toNat_eq
  rw [toNat_wordOf, BitVec.toNat_ofNat]

/-- R53: the words of a value with word j replaced, as numbers. -/
theorem word_setWord (a : FixedInt) (j : Fin 64) (v : Word) (k : Fin 64) :
    (setWord a j v).toNat / 2 ^ (32 * k.val) % 2 ^ 32 =
      if k = j then v.toNat else a.toNat / 2 ^ (32 * k.val) % 2 ^ 32 := by
  rw [← toNat_wordOf, ← toNat_wordOf]
  split
  case isTrue hkj => rw [hkj, wordOf_setWord_self a v j.isLt]
  case isFalse hkj => rw [wordOf_setWord_of_ne a v k.isLt (Fin.val_ne_of_ne hkj)]

/-- R57: byte b of word j is bits 32 j + 8 b and up of the value. -/
theorem extractByte_wordOf (a : FixedInt) (j : Nat) {b : Nat} (hb : b < 4) :
    (wordOf a j).extractLsb' (8 * b) 8 = a.extractLsb' (8 * (4 * j + b)) 8 := by
  apply BitVec.eq_of_getLsbD_eq
  intro i hi
  have hbit : 32 * j + (8 * b + i) = 8 * (4 * j + b) + i := by omega
  rw [BitVec.getLsbD_extractLsb', BitVec.getLsbD_extractLsb', getLsbD_wordOf, hbit,
    decide_eq_true (show 8 * b + i < 32 by omega), Bool.true_and]

/-- R53, R57: byte k of register r's part of the window is byte k of the value, lowest first. -/
theorem State.byteAt_window (s : State) (r : RegIdx) (k : Fin 256) :
    s.byteAt (0x800 + 0x100 * r.val + k.val) = (s.reg r).extractLsb' (8 * k.val) 8 := by
  have hj : k.val / 4 < 64 := by omega
  have hoff : 0x800 + 0x100 * r.val + k.val - (0x800 + 0x100 * r.val + k.val) % 4 =
      windowOffset r ⟨k.val / 4, hj⟩ := by
    simp only [windowOffset]
    omega
  have hbyte : (0x800 + 0x100 * r.val + k.val) % 4 = k.val % 4 := by omega
  rw [byteAt, hoff, hbyte, placeOf_windowOffset, readPlace, extractByte_wordOf _ _ (Nat.mod_lt _ (by decide)),
    Nat.div_add_mod]

/-- Settles O18: the access is served, its place is word j of register r, and a byte of the window is a byte of that
word. -/
theorem windowHoldsTheRegisterWords : Obligations.WindowHoldsTheRegisterWords := by
  intro s r j v hb
  have hread := State.hostRead_of_idle hb (windowOffset_aligned r j) (windowOffset_lt r j)
  have hwrite := State.hostWrite_of_idle hb v (windowOffset_aligned r j) (windowOffset_lt r j)
  rw [placeOf_windowOffset] at hread hwrite
  refine ⟨?_, ⟨setWord (s.reg r) j v, hwrite, word_setWord (s.reg r) j v⟩, fun k => ?_⟩
  · rw [hread, State.readPlace, wordOf_eq_ofNat]
    rfl
  · rw [s.byteAt_window r k, BitVec.extractLsb'_toNat, Nat.shiftRight_eq_div_pow]
    rfl

/-- R52, R59: a read changes of the block only ACC, which a refused one sets. -/
theorem State.hostRead_eq (s : State) (width : AccessWidth) (addr : Nat) :
    s.hostRead width addr = { s with
      flags := { s.flags with acc := s.flags.acc || !s.serves width addr }
      readData := (s.hostRead width addr).readData } := by
  cases hs : s.serves width addr with
  | true => rw [hostRead_of_serves hs, Bool.not_true, Bool.or_false]
  | false => rw [hostRead_of_refused hs, Bool.not_false, Bool.or_true]

/-- R59: repeating a read changes nothing more. -/
theorem State.hostRead_hostRead (s : State) (width : AccessWidth) (addr : Nat) :
    (s.hostRead width addr).hostRead width addr = s.hostRead width addr := by
  obtain ⟨hbusy, -⟩ := s.hostRead_frame width addr
  have hserves := serves_congr hbusy width addr
  cases hs : s.serves width addr with
  | true =>
    rw [hostRead_of_serves (hserves.trans hs), hostRead_of_serves hs]
    cases placeOf (offsetOf addr) <;> rfl
  | false => rw [hostRead_of_refused (hserves.trans hs), hostRead_of_refused hs]

/-- R51: from 0x400 on an offset is of the pair buffer or of the window. -/
theorem placeOf_data {off : Nat} (h : 0x400 ≤ off) :
    (∃ m : Fin 256, placeOf off = .pair m) ∨ ∃ (r : RegIdx) (j : Fin 64), placeOf off = .window r j := by
  rcases Nat.lt_or_ge off 0x800 with hpb | hwin
  · exact .inl ⟨_, placeOf_pair h hpb⟩
  · exact .inr ⟨_, _, placeOf_window hwin⟩

theorem State.setPair_setPair (s : State) (m : Fin 256) (v : Word) : (s.setPair m v).setPair m v = s.setPair m v := by
  rw [setPair, setPair_pb, Vector.set_set]
  rfl

theorem State.setReg_setReg (s : State) (r : RegIdx) (a b : FixedInt) : (s.setReg r a).setReg r b = s.setReg r b := by
  rw [setReg, setReg_x, Vector.set_set]
  rfl

theorem State.setRegWord_setRegWord (s : State) (r : RegIdx) (j : Fin 64) (v : Word) :
    (s.setRegWord r j v).setRegWord r j v = s.setRegWord r j v := by
  simp only [setRegWord, reg_setReg_self, setReg_setReg, setWord_setWord _ v j.isLt]

/-- R53, R54: a write to the pair buffer or the window leaves `busy`, and done twice is as done once. -/
theorem State.writePlace_writePlace (s : State) (v : Word) {off : Nat} (h : 0x400 ≤ off) :
    (s.writePlace v (placeOf off)).busy = s.busy ∧
      (s.writePlace v (placeOf off)).writePlace v (placeOf off) = s.writePlace v (placeOf off) := by
  rcases placeOf_data h with ⟨m, hp⟩ | ⟨r, j, hp⟩
  · rw [hp]
    exact ⟨rfl, s.setPair_setPair m v⟩
  · rw [hp]
    exact ⟨rfl, s.setRegWord_setRegWord r j v⟩

/-- R59: a host's write at 0x400 or above, served or refused, does the same once as twice. -/
theorem State.hostWrite_hostWrite (s : State) (width : AccessWidth) {addr : Nat} (v : Word)
    (hdata : 0x400 ≤ offsetOf addr) :
    (s.hostWrite width addr v).hostWrite width addr v = s.hostWrite width addr v := by
  cases hs : s.serves width addr with
  | true =>
    obtain ⟨hbusy, htwice⟩ := s.writePlace_writePlace v hdata
    rw [hostWrite_of_serves v hs, hostWrite_of_serves v ((serves_congr hbusy width addr).trans hs), htwice]
  | false =>
    rw [hostWrite_of_refused v hs]
    exact hostWrite_of_refused (s := { s with flags := { s.flags with acc := true } }) v hs

/-- Settles O27: the lemmas on a read, on a read repeated and on a write repeated. -/
theorem readsChangeNothingButAcc : Obligations.ReadsChangeNothingButAcc :=
  fun s w addr v => ⟨s.hostRead_eq w addr, s.hostRead_hostRead w addr,
    fun _ hdata => s.hostWrite_hostWrite w v hdata⟩

end Sys2Proof.Machine
end

section
/-! Completion (spec R32, R55, R207): the inputs are taken one by one, and a pending command reaches the engine's turn
with its operands as they were. -/

namespace Sys2Proof.Machine

theorem run_succ_of_step {M : Host.Core} {s t : M.State} (hstep : M.step s = .next t) (k : Nat) :
    M.run (k + 1) s = M.run k t := by
  rw [Host.Core.run, hstep]

/-- R32: the engine's turn leaves the block idle and takes no input. -/
theorem idle_of_engineTurn {s t : State} (he : engineTurn s = .next t) : t.busy = false ∧ t.inputs = s.inputs := by
  rcases engineTurn_cases s with ⟨hb, hn⟩ | ⟨-, i, -, hn⟩ | ⟨-, -, hn⟩
  · cases he.symm.trans hn
    exact ⟨hb, rfl⟩
  · obtain ⟨u, rfl, hw⟩ := writes_of_exec (hn.symm.trans he)
    exact ⟨rfl, hw.inputs⟩
  · cases he.symm.trans hn

theorem WriteEffect.inputs {s t : State} {width : AccessWidth} {addr : Nat} {v : Word}
    (he : WriteEffect s width addr v t) : t.inputs = s.inputs := by
  cases he <;> rfl

/-- R60: a step takes one input, if there is one. -/
theorem StepEffect.inputs {s t : State} (he : StepEffect s t) : t.inputs = s.inputs.tail := by
  cases he with
  | idleTurn | readServed | readRefused => rfl
  | completed _ _ _ _ _ hw => exact hw.inputs
  | written _ _ _ rest _ hin hw => rw [hw.inputs, hin, List.tail_cons]
  | reset rest hin => rw [State.resetBlock_inputs, hin, List.tail_cons]

/-- R207: from a state of the protocol, one step more than there are inputs ends idle with no input left. -/
theorem State.ProtocolInv.run_to_idle {s : State} (hinv : s.ProtocolInv) :
    ∃ t : State, Host.Core.run core (s.inputs.length + 1) s = .next t ∧ t.busy = false ∧ t.inputs = [] := by
  induction hin : s.inputs generalizing s with
  | nil =>
    obtain ⟨t, hstep⟩ := hinv.step_next
    obtain ⟨hidle, hleft⟩ := idle_of_engineTurn ((step_of_no_input hin).symm.trans hstep)
    exact ⟨t, run_succ_of_step hstep 0, hidle, hleft.trans hin⟩
  | cons e rest ih =>
    obtain ⟨t, hstep⟩ := hinv.step_next
    have heff := step_effect hstep
    have hleft : t.inputs = rest := by rw [heff.inputs, hin, List.tail_cons]
    obtain ⟨u, hrun, hidle, hnone⟩ := ih (heff.protocolInv hinv) hleft
    exact ⟨u, (run_succ_of_step hstep _).trans hrun, hidle, hnone⟩

/-- R55: `u` is busy with the command pending in `s`, with the operand registers and the pair buffer of `s`. -/
structure SamePending (s u : State) : Prop where
  busy    : u.busy = true
  pending : u.pending = s.pending
  x       : u.x = s.x
  pb      : u.pb = s.pb

theorem SamePending.refl {s : State} (hb : s.busy = true) : SamePending s s := ⟨hb, rfl, rfl, rfl⟩

theorem SamePending.trans {s t u : State} (hst : SamePending s t) (htu : SamePending t u) : SamePending s u :=
  ⟨htu.busy, htu.pending.trans hst.pending, htu.x.trans hst.x, htu.pb.trans hst.pb⟩

/-- R55: while busy, a step that is neither the engine's turn nor reset keeps the pending command and its operands. -/
theorem samePending_of_hostStep {s : State} {e : Input} {rest : List Input} (hb : s.busy = true)
    (hin : s.inputs = e :: rest) (hengine : e ≠ .engine) (hreset : e ≠ .reset) :
    ∃ t : State, step s = .next t ∧ SamePending s t ∧ t.inputs = rest := by
  rw [step_of_input hin]
  cases e with
  | engine => exact absurd rfl hengine
  | reset => exact absurd rfl hreset
  | read width addr =>
    obtain ⟨hb', hp, hx, hpb, hins⟩ := State.hostRead_frame { s with inputs := rest } width addr
    exact ⟨_, rfl, ⟨hb'.trans hb, hp, hx, hpb⟩, hins⟩
  | write width addr v =>
    obtain ⟨hb', hp, hx, hpb, hins⟩ :=
      State.hostWrite_frame_of_busy (s := { s with inputs := rest }) hb width addr v
    exact ⟨_, rfl, ⟨hb', hp, hx, hpb⟩, hins⟩

/-- R55, R207: with no reset to come, a busy block reaches the engine's turn within its inputs, the same command
pending. -/
theorem run_to_turn {s : State} (hb : s.busy = true) (hnr : Input.reset ∉ s.inputs) :
    ∃ (k : Nat) (u : State), k ≤ s.inputs.length ∧ Host.Core.run core k s = .next u ∧ SamePending s u ∧
      u.TurnNext := by
  induction hin : s.inputs generalizing s with
  | nil => exact ⟨0, s, Nat.le_refl 0, rfl, .refl hb, .inl hin⟩
  | cons e rest ih =>
    rw [hin, List.mem_cons, not_or] at hnr
    obtain ⟨hreset, hnr⟩ := hnr
    by_cases hengine : e = .engine
    · exact ⟨0, s, Nat.zero_le _, rfl, .refl hb, .inr ⟨rest, hengine ▸ hin⟩⟩
    · obtain ⟨t, hstep, hst, hleft⟩ := samePending_of_hostStep hb hin hengine (Ne.symm hreset)
      obtain ⟨k, u, hk, hrun, htu, hturn⟩ := ih hst.busy (hleft ▸ hnr) hleft
      exact ⟨k + 1, u, Nat.succ_le_succ hk, (run_succ_of_step hstep k).trans hrun, hst.trans htu, hturn⟩

/-- R60, R207: with the engine's turn next, the step is that turn. -/
theorem State.TurnNext.step_eq {s : State} (hturn : s.TurnNext) :
    step s = engineTurn { s with inputs := s.inputs.tail } := by
  rcases hturn with hin | ⟨rest, hin⟩
  · have hs : { s with inputs := s.inputs.tail } = s := by rw [hin, List.tail_nil, ← hin]
    rw [hs, step_of_no_input hin]
  · rw [step_of_input hin, hin]
    rfl

/-- Settles O14: the run takes every input and ends in the engine's turn; with no reset among them it reaches that turn
with the command still pending, and every command completes. -/
theorem everyIssuedCommandCompletes : Obligations.EveryIssuedCommandCompletes := by
  intro s hinv
  refine ⟨hinv.run_to_idle, fun hb hnr => ?_⟩
  obtain ⟨i, hd⟩ := legal_iff_exists_decode.mp (hinv hb).1
  obtain ⟨k, u, hk, hrun, hsame, hturn⟩ := run_to_turn hb hnr
  have hexec : step u = exec i { u with inputs := u.inputs.tail } :=
    hturn.step_eq.trans (engineTurn_of_busy hsame.busy (hsame.pending ▸ hd))
  obtain ⟨w, hw, -⟩ := exec_writes i { u with inputs := u.inputs.tail }
  exact ⟨i, k, u, w.complete, hd, hk, hrun, hsame.busy, hsame.pending, hsame.x, hsame.pb, hturn, hexec,
    hexec.trans hw, rfl, rfl⟩

end Sys2Proof.Machine
end

section
/-! The round trips of the encoding (spec R70 to R75): a word that decodes holds its command's fields and no other bit,
and the opcode of a word leaves it one row of the map. -/

namespace Sys2Proof

/-- Settles O1: the word of fields reads back as those fields, and the decoder reads the command in them. -/
theorem decodeAfterEncodeGivesTheCommand : Obligations.DecodeAfterEncodeGivesTheCommand :=
  fun _ hwf => decode_encode hwf

/-- R73: the unused fields are checked, one by one. -/
theorem Fields.unusedZero_iff {f : Fields} {u : FieldUse} : f.unusedZero u = true ↔
    (u.rd = true ∨ f.rd = 0) ∧ (u.rs1 = true ∨ f.rs1 = 0) ∧ (u.rs2 = true ∨ f.rs2 = 0) ∧
      (u.rs3 = true ∨ f.rs3 = 0) ∧ (u.r4 = true ∨ f.r4 = 0) ∧ (u.imm = true ∨ f.imm = 0) := by
  simp only [Fields.unusedZero, Bool.and_eq_true, Bool.or_eq_true, beq_iff_eq, and_assoc]

theorem Fields.accept_eq_ok {f : Fields} {u : FieldUse} {i j : Instr} :
    f.accept u i = .ok j ↔ f.unusedZero u = true ∧ i = j := by
  unfold Fields.accept
  split <;> simp_all

/-- R72, R73: fields that decode are the fields of their command, opcode by opcode: those it uses are its operands, and
the others are 0. -/
theorem eq_encodeFields_of_decodeFields {f : Fields} {i : Instr} (hd : decodeFields f = .ok i) :
    i.wellFormed = true ∧ f = encodeFields i := by
  obtain ⟨op, rd, rs1, rs2, rs3, r4, imm⟩ := f
  have op_eq {n : Nat} (hop : op.toNat = n) : op = BitVec.ofNat 5 n := by
    rw [← hop, BitVec.ofNat_toNat, BitVec.setWidth_eq]
  rw [decodeFields] at hd
  split at hd
  case h_3 hop =>
    split_ifs at hd with hz hlen
    cases hd
    exact ⟨decide_eq_true hlen, by simpa [Fields.unusedZero_iff, encodeFields, op_eq hop] using hz⟩
  case h_21 => cases hd
  all_goals
    next hop =>
    obtain ⟨hz, rfl⟩ := Fields.accept_eq_ok.mp hd
    exact ⟨rfl, by simpa [Fields.unusedZero_iff, encodeFields, op_eq hop] using hz⟩

/-- Settles O2: the fields of a word that decodes are those of its command, and a word is the word of its fields. -/
theorem encodeAfterDecodeGivesTheWord : Obligations.EncodeAfterDecodeGivesTheWord := by
  intro v i hd
  obtain ⟨hwf, hfields⟩ := eq_encodeFields_of_decodeFields hd
  exact ⟨hwf, by rw [encode, ← hfields, Fields.toWord_ofWord]⟩

/-- Settles O3: opcode by opcode, the fields the decoder accepts are those whose word the masks call legal. -/
theorem decoderAcceptsExactlyLegalWords : Obligations.DecoderAcceptsExactlyLegalWords :=
  isSome_decode?

/-- R72: a row of the map that matches a word is the row of the word's opcode. -/
theorem op_of_rowOf_matches {v : Word} {p : Nat × FieldUse} (hm : (rowOf p).matches v = true) :
    (Fields.ofWord v).op = BitVec.ofNat 5 p.1 := by
  rw [← Fields.toWord_ofWord v, rowOf_matches_toWord, Bool.and_eq_true, beq_iff_eq] at hm
  exact hm.1

/-- R72: an opcode stands in one row of the map. -/
theorem fieldUses_op_inj : ∀ p ∈ fieldUses, ∀ q ∈ fieldUses, BitVec.ofNat 5 p.1 = BitVec.ofNat 5 q.1 → p = q := by
  decide

/-- Settles O4: rows that match one word have the opcode of that word, and each opcode has one row. -/
theorem noWordMatchesTwoOpcodeRows : Obligations.NoWordMatchesTwoOpcodeRows := by
  intro v p q hp hq hpm hqm
  rw [opcodeRows_eq_map_rowOf, List.mem_map] at hp hq
  obtain ⟨p, hp, rfl⟩ := hp
  obtain ⟨q, hq, rfl⟩ := hq
  rw [fieldUses_op_inj p hp q hq ((op_of_rowOf_matches hpm).symm.trans (op_of_rowOf_matches hqm))]

/-- Settles O5: each word is evaluated by the decoder. -/
theorem specWordsDecodeAsWritten : Obligations.SpecWordsDecodeAsWritten :=
  ⟨rfl, rfl, rfl, rfl, rfl, rfl, rfl, rfl, rfl, rfl, rfl, rfl, rfl, rfl, rfl⟩

end Sys2Proof
end

section
/-! The assembler reads its own text (spec R76, R77): the text of an operand reads as the operand, the line of a
mnemonic and operands is cut into them again, and each command's text is such a line. -/

namespace Sys2Proof.Machine

/-- The character of a decimal digit. -/
def digitChar (d : Nat) : Char := Char.ofNat (48 + d)

/-- The digits of a number below 10000, most significant first, the leading zeros dropped. -/
def decimalDigits (n : Nat) : List Nat :=
  [n / 1000 % 10, n / 100 % 10, n / 10 % 10].dropWhile (· == 0) ++ [n % 10]

theorem decimalText_eq (n : Nat) : decimalText n = (decimalDigits n).map digitChar := rfl

/-- R76: the text of an operand. -/
def AsmOperand.text : AsmOperand → List Char
  | .reg r => regText r
  | .imm k => immText k

theorem AsmOperand.text_reg (r : RegIdx) : (AsmOperand.reg r).text = ['r', digitChar r.val] := rfl

theorem AsmOperand.text_imm (k : Imm12) : (AsmOperand.imm k).text = '#' :: decimalText k.toNat := rfl

theorem toNat_digitChar {d : Nat} (hd : d < 10) : (digitChar d).toNat = 48 + d := by
  rw [digitChar, Char.toNat_ofNat, if_pos (Or.inl (by omega))]

theorem decimalDigits_lt_ten (n : Nat) : ∀ d ∈ decimalDigits n, d < 10 := by
  intro d hd
  have hall : d ∈ [n / 1000 % 10, n / 100 % 10, n / 10 % 10] ++ [n % 10] :=
    ((List.dropWhile_sublist _).append_right _).mem hd
  simp only [List.cons_append, List.nil_append, List.mem_cons, List.not_mem_nil, or_false] at hall
  omega

/-- Digits are read from the most significant on. -/
theorem decimalValue?_map_digitChar (ds : List Nat) (acc : Nat) (hds : ∀ d ∈ ds, d < 10) :
    decimalValue? (ds.map digitChar) acc = some (ds.foldl (fun acc d => 10 * acc + d) acc) := by
  induction ds generalizing acc with
  | nil => rfl
  | cons d ds ih =>
    rw [List.forall_mem_cons] at hds
    obtain ⟨hd, hds⟩ := hds
    rw [List.map_cons, decimalValue?, toNat_digitChar hd, if_pos (by omega), Nat.add_sub_cancel_left, ih _ hds,
      List.foldl_cons]

/-- Leading zeros do not change a number. -/
theorem foldl_dropWhile_zero (ds : List Nat) :
    (ds.dropWhile (· == 0)).foldl (fun acc d => 10 * acc + d) 0 = ds.foldl (fun acc d => 10 * acc + d) 0 := by
  induction ds with
  | nil => rfl
  | cons d ds ih =>
    cases d with
    | zero => exact ih
    | succ d => rfl

theorem foldl_decimalDigits {n : Nat} (hn : n < 10000) :
    (decimalDigits n).foldl (fun acc d => 10 * acc + d) 0 = n := by
  rw [decimalDigits, List.foldl_append, foldl_dropWhile_zero]
  simp only [List.foldl_cons, List.foldl_nil]
  omega

/-- R76: a text of decimal digits is no hexadecimal one. -/
theorem number?_map_digitChar {ds : List Nat} (hds : ∀ d ∈ ds, d < 10) (hne : ds ≠ []) :
    number? (ds.map digitChar) = decimalValue? (ds.map digitChar) 0 := by
  have hx : 'x' ∉ ds.map digitChar := by
    rw [List.mem_map]
    rintro ⟨d, hd, hxd⟩
    have hlt := hds d hd
    have hcode : 120 = 48 + d := (congrArg Char.toNat hxd).symm.trans (toNat_digitChar hlt)
    omega
  unfold number?
  split
  next hnil => exact absurd (List.map_eq_nil_iff.mp hnil) hne
  next hhex => exact absurd (by simp [hhex]) hx
  next hhex => exact absurd (by simp [hhex]) hx
  next => rfl

theorem number?_decimalText {n : Nat} (hn : n < 10000) : number? (decimalText n) = some n := by
  have hds := decimalDigits_lt_ten n
  rw [decimalText_eq, number?_map_digitChar hds (List.append_ne_nil_of_right_ne_nil _ (List.cons_ne_nil _ _)),
    decimalValue?_map_digitChar _ _ hds, foldl_decimalDigits hn]

/-- R76: the text of an operand reads as the operand. -/
theorem operand?_text (o : AsmOperand) : operand? o.text = some o := by
  cases o with
  | reg r =>
    have hr : (digitChar r.val).toNat = 48 + r.val := toNat_digitChar (by omega)
    rw [AsmOperand.text_reg, operand?, dif_pos (by omega)]
    simp only [hr, Nat.add_sub_cancel_left]
  | imm k =>
    have hk := k.isLt
    rw [AsmOperand.text_imm, operand?, number?_decimalText (by omega), Option.bind_some, if_pos (by omega),
      BitVec.ofNat_toNat, BitVec.setWidth_eq]

theorem operands?_map_text (os : List AsmOperand) : operands? (os.map AsmOperand.text) = some os := by
  induction os with
  | nil => rfl
  | cons o os ih => rw [List.map_cons, operands?, operand?_text, ih]; rfl

/-- R76: the characters of an operand's text: neither a space nor a comma is among them. -/
theorem mem_text {o : AsmOperand} {c : Char} (hc : c ∈ o.text) : c = '#' ∨ 48 ≤ c.toNat := by
  cases o with
  | reg r =>
    obtain rfl | rfl : c = 'r' ∨ c = digitChar r.val := List.mem_pair.mp hc
    · exact .inr (by decide)
    · exact .inr (by rw [toNat_digitChar (by omega)]; omega)
  | imm k =>
    obtain rfl | hc : c = '#' ∨ c ∈ (decimalDigits k.toNat).map digitChar := List.mem_cons.mp hc
    · exact .inl rfl
    · obtain ⟨d, hd, rfl⟩ := List.mem_map.mp hc
      exact .inr (by rw [toNat_digitChar (decimalDigits_lt_ten _ d hd)]; omega)

theorem space_not_mem_text (o : AsmOperand) : ' ' ∉ o.text :=
  fun hc => (mem_text hc).elim (by decide) (by decide)

theorem comma_not_mem_text (o : AsmOperand) : ',' ∉ o.text :=
  fun hc => (mem_text hc).elim (by decide) (by decide)

/-- Text without spaces: what dropping the spaces leaves as it is. -/
theorem bne_space {w : List Char} (hw : ' ' ∉ w) : ∀ c ∈ w, (c != ' ') = true :=
  fun _ hc => bne_iff_ne.mpr fun h => hw (h ▸ hc)

theorem splitCommas_of_not_mem {w : List Char} (hw : ',' ∉ w) : splitCommas w = [w] := by
  induction w with
  | nil => rfl
  | cons c w ih =>
    rw [List.mem_cons, not_or] at hw
    rw [splitCommas, if_neg (Ne.symm hw.1), ih hw.2]

theorem splitCommas_append_comma {w : List Char} (hw : ',' ∉ w) (rest : List Char) :
    splitCommas (w ++ ',' :: rest) = w :: splitCommas rest := by
  induction w with
  | nil => rfl
  | cons c w ih =>
    rw [List.mem_cons, not_or] at hw
    rw [List.cons_append, splitCommas, if_neg (Ne.symm hw.1), ih hw.2]

/-- R76: the texts after a mnemonic are cut at the commas between them, the spaces dropped. -/
theorem splitCommas_filter_operandTexts (o : AsmOperand) (os : List AsmOperand) :
    splitCommas ((o.text ++ ((os.map AsmOperand.text).map fun p => ',' :: ' ' :: p).flatten).filter (· != ' ')) =
      (o :: os).map AsmOperand.text := by
  have keeps (o : AsmOperand) : o.text.filter (· != ' ') = o.text :=
    List.filter_eq_self.mpr (bne_space (space_not_mem_text o))
  induction os generalizing o with
  | nil => simp [keeps, splitCommas_of_not_mem (comma_not_mem_text o)]
  | cons p os ih =>
    rw [List.filter_append, keeps]
    simpa [splitCommas_append_comma (comma_not_mem_text o)] using ih p

/-- A mnemonic: a word before the first space. -/
def IsMnemonic (name : List Char) : Prop := name ≠ [] ∧ ' ' ∉ name

/-- R76: what a line assembles to, by its mnemonic and the operands after it. -/
theorem assemble_of_parts {name tail : List Char} {os : List AsmOperand} {i : Instr} (hname : IsMnemonic name)
    (hos : operands? (splitCommas (tail.filter (· != ' '))) = some os) (hparts : assembleParts name os = some i)
    (hwf : i.wellFormed = true) : assemble (name ++ ' ' :: tail) = some i := by
  obtain ⟨hne, hspace⟩ := hname
  have hline : (name ++ ' ' :: tail).dropWhile (· == ' ') = name ++ ' ' :: tail := by
    obtain ⟨c, cs, rfl⟩ := List.exists_cons_of_ne_nil hne
    exact List.dropWhile_cons_of_neg fun hc => hspace (beq_iff_eq.mp hc ▸ List.mem_cons_self)
  have hend := bne_space hspace
  rw [assemble, hline, List.takeWhile_append_of_pos hend, List.dropWhile_append_of_pos hend]
  simp [hos, hparts, hwf]

/-- R76, R77: a line of operand texts assembles to the command its mnemonic and operands make. -/
theorem assemble_lineText {name : List Char} {os : List AsmOperand} {i : Instr} (hname : IsMnemonic name)
    (hos : os ≠ []) (hparts : assembleParts name os = some i) (hwf : i.wellFormed = true) :
    assemble (lineText name (os.map AsmOperand.text)) = some i := by
  obtain ⟨o, os, rfl⟩ := List.exists_cons_of_ne_nil hos
  rw [List.map_cons, lineText, List.append_assoc, List.cons_append]
  exact assemble_of_parts hname (by rw [splitCommas_filter_operandTexts, operands?_map_text]) hparts hwf

/-- R76: the mnemonic of a command and its operands, destinations first. -/
def asmParts : Instr → List Char × List AsmOperand
  | .clr rd => (['C', 'L', 'R'], [.reg rd])
  | .mov rd rs1 => (['M', 'O', 'V'], [.reg rd, .reg rs1])
  | .ldwl rd len => (['L', 'D', 'W', 'L'], [.reg rd, .imm len])
  | .add rd rs1 rs2 => (['A', 'D', 'D'], [.reg rd, .reg rs1, .reg rs2])
  | .sub rd rs1 rs2 => (['S', 'U', 'B'], [.reg rd, .reg rs1, .reg rs2])
  | .cmp rs1 rs2 => (['C', 'M', 'P'], [.reg rs1, .reg rs2])
  | .shlw rd rs1 k => (['S', 'H', 'L', 'W'], [.reg rd, .reg rs1, .imm k])
  | .shl rd rs1 n => (['S', 'H', 'L'], [.reg rd, .reg rs1, .imm n])
  | .shr rd rs1 n => (['S', 'H', 'R'], [.reg rd, .reg rs1, .imm n])
  | .bitlen rs1 => (['B', 'I', 'T', 'L', 'E', 'N'], [.reg rs1])
  | .getbit rs1 k => (['G', 'E', 'T', 'B', 'I', 'T'], [.reg rs1, .imm k])
  | .mulw rd rs1 rs2 => (['M', 'U', 'L', 'W'], [.reg rd, .reg rs1, .reg rs2])
  | .mul rd rs1 rs2 => (['M', 'U', 'L'], [.reg rd, .reg rs1, .reg rs2])
  | .divmod rd r4 rs1 rs2 => (['D', 'I', 'V', 'M', 'O', 'D'], [.reg rd, .reg r4, .reg rs1, .reg rs2])
  | .pow rd rs1 rs2 => (['P', 'O', 'W'], [.reg rd, .reg rs1, .reg rs2])
  | .gcd rd rs1 rs2 => (['G', 'C', 'D'], [.reg rd, .reg rs1, .reg rs2])
  | .lcm rd rs1 rs2 => (['L', 'C', 'M'], [.reg rd, .reg rs1, .reg rs2])
  | .bmu rd rs1 => (['B', 'M', 'U'], [.reg rd, .reg rs1])
  | .bred rd rs1 rs2 rs3 => (['B', 'R', 'E', 'D'], [.reg rd, .reg rs1, .reg rs2, .reg rs3])
  | .powmod rd rs1 rs2 rs3 r4 =>
    (['P', 'O', 'W', 'M', 'O', 'D'], [.reg rd, .reg rs1, .reg rs2, .reg rs3, .reg r4])

theorem assembleParts_asmParts (i : Instr) : assembleParts (asmParts i).1 (asmParts i).2 = some i := by
  cases i <;> rfl

theorem asmText_eq_lineText (i : Instr) :
    asmText i = lineText (asmParts i).1 ((asmParts i).2.map AsmOperand.text) := by
  cases i <;> rfl

theorem isMnemonic_asmParts (i : Instr) : IsMnemonic (asmParts i).1 := by
  cases i <;> simp [IsMnemonic, asmParts]

theorem asmParts_operands_ne_nil (i : Instr) : (asmParts i).2 ≠ [] := by
  cases i <;> exact List.cons_ne_nil _ _

/-- R76: a command's text is the line of its mnemonic and operands, so it assembles to the command. -/
theorem assemble_asmText {i : Instr} (hwf : i.wellFormed = true) : assemble (asmText i) = some i := by
  rw [asmText_eq_lineText]
  exact assemble_lineText (isMnemonic_asmParts i) (asmParts_operands_ne_nil i) (assembleParts_asmParts i) hwf

/-- Settles O59: a command's text, and the SQR line too, is the line of a mnemonic and operands, which the assembler
cuts into them again. -/
theorem assemblerReadsItsOwnText : Obligations.AssemblerReadsItsOwnText :=
  ⟨fun _ hwf => assemble_asmText hwf, fun rd rs =>
    assemble_lineText (name := ['S', 'Q', 'R']) (os := [.reg rd, .reg rs]) ⟨nofun, by decide⟩ nofun rfl rfl⟩

end Sys2Proof.Machine
end

section
/-! Layer 1 on values and commands (spec R101 to R107): a command that writes one destination completes with it; the
word-by-word sum, difference and comparison are those of the whole values; LDWL's pairs are applied one by one. -/

namespace Sys2Proof

/-- R70, R72: the number a command's word is, by the command's fields. -/
theorem toNat_encode (i : Instr) : (encode i).toNat =
    (encodeFields i).op.toNat * 2 ^ 27 + (encodeFields i).rd.toNat * 2 ^ 24 + (encodeFields i).rs1.toNat * 2 ^ 21 +
      (encodeFields i).rs2.toNat * 2 ^ 18 + (encodeFields i).rs3.toNat * 2 ^ 15 + (encodeFields i).r4.toNat * 2 ^ 12 +
      (encodeFields i).imm.toNat :=
  (encodeFields i).toNat_toWord

end Sys2Proof

namespace Sys2Proof.Machine

/-! ### Completion with one destination -/

/-- R32, R100: the completion of a command that has written one register. -/
theorem State.complete_setReg (s : State) (r : RegIdx) (v : FixedInt) :
    (s.setReg r v).complete = s.completedWith (s.x.set r v) s.result { s.flags with done := true } := rfl

/-- R30, R32: the completion of a command that has written RESULT. -/
theorem State.complete_setResult (s : State) (v : Word) :
    (s.setResult v).complete = s.completedWith s.x v { s.flags with done := true } := rfl

/-- Settles O34: both commands complete with one register written. -/
theorem clrWritesZeroAndMovCopies : Obligations.ClrWritesZeroAndMovCopies := fun s rd rs1 =>
  ⟨by simp [toNat_encode, encodeFields], by simp [toNat_encode, encodeFields],
    congrArg Host.Outcome.next (s.complete_setReg rd 0), congrArg Host.Outcome.next (s.complete_setReg rd s.x[rs1])⟩

/-! ### ADD and SUB: carries and borrows -/

@[simp] theorem length_wordsOf (a : FixedInt) : (wordsOf a).length = 64 := by simp [wordsOf]

/-- R8: a list of 64 words is the words of its value. -/
theorem wordsOf_ofWords {l : List Word} (h : l.length = 64) : wordsOf (ofWords l) = l := by
  apply List.ext_getElem (by simp [h])
  intro j _ hj
  simp [wordsOf, wordOf_ofWords h, hj]

/-- R104: the carry out of the last word is what the remainder drops. -/
theorem valOf_rippleAdd {as bs : List Word} (hlen : as.length = bs.length) (c : Nat) :
    valOf (rippleAdd as bs c) = (valOf as + valOf bs + c) % 2 ^ (32 * as.length) := by
  induction as generalizing bs c with
  | nil => simp [rippleAdd, valOf, Nat.mod_one]
  | cons a as ih =>
    obtain ⟨b, bs, rfl⟩ := List.exists_cons_of_length_eq_add_one hlen.symm
    have hsum : valOf (a :: as) + valOf (b :: bs) + c =
        a.toNat + b.toNat + c + 2 ^ 32 * (valOf as + valOf bs) := by
      simp only [valOf]
      omega
    rw [rippleAdd, valOf, ih (by simpa using hlen), BitVec.toNat_ofNat, hsum, List.length_cons,
      show 32 * (as.length + 1) = 32 + 32 * as.length by omega, Nat.pow_add, Nat.mod_mul, Nat.add_mul_mod_self_left,
      Nat.add_mul_div_left _ _ (by decide), Nat.add_comm (valOf as + valOf bs)]

/-- R104: the ripple-carry sum is the sum in the ring. -/
theorem wordAdd_eq_fixAdd (a b : FixedInt) : wordAdd a b = fixAdd a b := by
  apply BitVec.eq_of_toNat_eq
  rw [wordAdd, ofWords, valOf_rippleAdd (by simp), valOf_wordsOf, valOf_wordsOf, length_wordsOf, BitVec.toNat_ofNat,
    Nat.mod_mod, fixAdd, BitVec.toNat_add]
  rfl

/-- Settles O36: the ripple-carry sum is the ring's sum, with which ADD completes. -/
theorem addIsRippleCarryAddition : Obligations.AddIsRippleCarryAddition := by
  intro s rd rs1 rs2
  rw [wordAdd_eq_fixAdd]
  exact ⟨by simp [toNat_encode, encodeFields],
    congrArg Host.Outcome.next (s.complete_setReg rd (fixAdd s.x[rs1] s.x[rs2])), BitVec.toNat_add _ _⟩

theorem length_rippleSub {as bs : List Word} (hlen : as.length = bs.length) (bw : Int) :
    (rippleSub as bs bw).length = as.length := by
  induction as generalizing bs bw with
  | nil => simp [rippleSub]
  | cons a as ih =>
    obtain ⟨b, bs, rfl⟩ := List.exists_cons_of_length_eq_add_one hlen.symm
    rw [rippleSub, List.length_cons, ih (by simpa using hlen), List.length_cons]

/-- R105, R107: a word of a difference, with what was taken away added again, is the word it came from, and the sum
carries exactly where the difference borrowed. -/
theorem exists_borrow (a b : Word) {bw : Nat} (hbw : bw ≤ 1) : ∃ borrow : Nat, borrow ≤ 1 ∧
    (if (a.toNat : Int) - b.toNat - bw < 0 then (1 : Int) else 0) = borrow ∧
    (BitVec.ofInt 32 (a.toNat - b.toNat - bw)).toNat + b.toNat + bw = a.toNat + 2 ^ 32 * borrow := by
  have ha := a.isLt
  have hb := b.isLt
  rw [BitVec.toNat_ofInt]
  by_cases hneg : (a.toNat : Int) - b.toNat - bw < 0
  · exact ⟨1, by decide, if_pos hneg, by omega⟩
  · exact ⟨0, by decide, if_neg hneg, by omega⟩

/-- R107, word by word: the carries of the sum are the borrows of the difference. -/
theorem rippleAdd_rippleSub {as bs : List Word} (hlen : as.length = bs.length) {bw : Nat} (hbw : bw ≤ 1) :
    rippleAdd (rippleSub as bs bw) bs bw = as := by
  induction as generalizing bs bw with
  | nil => simp [rippleAdd, rippleSub]
  | cons a as ih =>
    obtain ⟨b, bs, rfl⟩ := List.exists_cons_of_length_eq_add_one hlen.symm
    obtain ⟨borrow, hle, hborrow, hsum⟩ := exists_borrow a b hbw
    have ha := a.isLt
    have hcarry : (a.toNat + 2 ^ 32 * borrow) / 2 ^ 32 = borrow := by omega
    have hword : BitVec.ofNat 32 (a.toNat + 2 ^ 32 * borrow) = a := by
      apply BitVec.eq_of_toNat_eq
      rw [BitVec.toNat_ofNat, Nat.add_mul_mod_self_left, Nat.mod_eq_of_lt ha]
    rw [rippleSub, hborrow, rippleAdd, hsum, hword, hcarry, ih (by simpa using hlen) hle]

/-- R107: the ripple-carry sum undoes the ripple-borrow difference. -/
theorem wordAdd_wordSub (a b : FixedInt) : wordAdd (wordSub a b) b = a := by
  have hlen : (wordsOf a).length = (wordsOf b).length := by simp
  rw [wordAdd, wordSub, wordsOf_ofWords (by simp [length_rippleSub hlen])]
  exact (congrArg ofWords (rippleAdd_rippleSub hlen (Nat.zero_le 1))).trans (ofWords_wordsOf a)

/-- R105: the ripple-borrow difference is the one value whose sum with b is a, the difference in the ring. -/
theorem wordSub_eq_fixSub (a b : FixedInt) : wordSub a b = fixSub a b :=
  BitVec.eq_sub_iff_add_eq.mpr ((wordAdd_eq_fixAdd _ _).symm.trans (wordAdd_wordSub a b))

/-- A difference of bit vectors is the Euclidean remainder of the difference, whichever operand is larger. -/
theorem toNat_sub_eq_emod {w : Nat} (a b : BitVec w) :
    ((a - b).toNat : Int) = ((a.toNat : Int) - b.toNat) % 2 ^ w := by
  rw [BitVec.toNat_sub, Int.natCast_emod, Int.natCast_add, Int.natCast_sub b.isLt.le, Int.natCast_pow,
    ← Int.add_emod_right (a.toNat - b.toNat : Int)]
  congr 1
  push_cast
  omega

/-- Settles O37: the ripple-borrow difference is the ring's difference, with which SUB completes. -/
theorem subIsRippleBorrowSubtraction : Obligations.SubIsRippleBorrowSubtraction := by
  intro s rd rs1 rs2
  rw [wordSub_eq_fixSub]
  exact ⟨by simp [toNat_encode, encodeFields],
    congrArg Host.Outcome.next (s.complete_setReg rd (fixSub s.x[rs1] s.x[rs2])), toNat_sub_eq_emod _ _⟩

/-- Settles O39: on values word by word; on commands because SUB leaves the register of B as it was, so ADD reads the
difference and B. -/
theorem addUndoesSub : Obligations.AddUndoesSub := by
  refine ⟨wordAdd_wordSub, fun s rd rs1 rs2 hne => ⟨_, _, rfl, rfl, (State.reg_setReg_self _ rd _).trans ?_⟩⟩
  change fixAdd ((s.setReg rd (fixSub (s.reg rs1) (s.reg rs2))).reg rd)
    ((s.setReg rd (fixSub (s.reg rs1) (s.reg rs2))).reg rs2) = s.reg rs1
  rw [s.reg_setReg_self, s.reg_setReg_of_ne hne.symm, fixAdd, fixSub, BitVec.sub_add_cancel]

/-! ### CMP: the scan from the top word -/

/-- R106: the scan goes on below the words it has found equal. -/
theorem scanCompare_append {as bs : List Word} (hlen : as.length = bs.length) (cs ds : List Word) :
    scanCompare (as ++ cs) (bs ++ ds) = (scanCompare as bs).then (scanCompare cs ds) := by
  induction as generalizing bs with
  | nil =>
    obtain rfl := List.length_eq_zero_iff.mp hlen.symm
    rfl
  | cons a as ih =>
    obtain ⟨b, bs, rfl⟩ := List.exists_cons_of_length_eq_add_one hlen.symm
    simp only [List.cons_append, scanCompare, ih (by simpa using hlen)]
    split
    · split <;> rfl
    · rfl

theorem scanCompare_singleton (a b : Word) : scanCompare [a] [b] = compare a.toNat b.toNat := by
  obtain hlt | heq | hgt := lt_trichotomy a.toNat b.toNat
  · rw [Nat.compare_eq_lt.mpr hlt, scanCompare, if_pos (by rintro rfl; omega), if_pos (BitVec.lt_def.mpr hlt)]
  · rw [Nat.compare_eq_eq.mpr heq, BitVec.eq_of_toNat_eq heq]
    simp [scanCompare]
  · have hnot : ¬ a < b := BitVec.lt_def.not.mpr (by omega)
    rw [Nat.compare_eq_gt.mpr hgt, scanCompare, if_pos (by rintro rfl; omega), if_neg hnot]

/-- R106: the scan from the most significant word down finds the order of the numbers. -/
theorem scanCompare_reverse {as bs : List Word} (hlen : as.length = bs.length) :
    scanCompare as.reverse bs.reverse = compare (valOf as) (valOf bs) := by
  induction as generalizing bs with
  | nil =>
    obtain rfl := List.length_eq_zero_iff.mp hlen.symm
    rfl
  | cons a as ih =>
    obtain ⟨b, bs, rfl⟩ := List.exists_cons_of_length_eq_add_one hlen.symm
    have hlen : as.length = bs.length := by simpa using hlen
    have ha := a.isLt
    have hb := b.isLt
    rw [List.reverse_cons, List.reverse_cons, scanCompare_append (by simpa using hlen), ih hlen, scanCompare_singleton]
    obtain hlt | heq | hgt := lt_trichotomy (valOf as) (valOf bs)
    · have hcons : valOf (a :: as) < valOf (b :: bs) := by simp only [valOf]; omega
      rw [Nat.compare_eq_lt.mpr hlt, Nat.compare_eq_lt.mpr hcons, Ordering.lt_then]
    · simp [valOf, heq, Nat.compare_eq_ite_lt]
    · have hcons : valOf (b :: bs) < valOf (a :: as) := by simp only [valOf]; omega
      rw [Nat.compare_eq_gt.mpr hgt, Nat.compare_eq_gt.mpr hcons, Ordering.gt_then]

theorem fixCompare_eq_compare (a b : FixedInt) : fixCompare a b = compare a.toNat b.toNat := by
  obtain hlt | heq | hgt := lt_trichotomy a.toNat b.toNat
  · rw [Nat.compare_eq_lt.mpr hlt, fixCompare_eq_lt.mpr hlt]
  · rw [Nat.compare_eq_eq.mpr heq, BitVec.eq_of_toNat_eq heq]
    simp [fixCompare]
  · rw [Nat.compare_eq_gt.mpr hgt, fixCompare_eq_gt.mpr hgt]

theorem wordCompare_eq_fixCompare (a b : FixedInt) : wordCompare a b = fixCompare a b := by
  rw [wordCompare, scanCompare_reverse (by simp), valOf_wordsOf, valOf_wordsOf, fixCompare_eq_compare]

/-- R30, R106: RESULT after a comparison, by the order of the numbers. -/
theorem orderingWord_fixCompare (a b : FixedInt) : orderingWord (fixCompare a b) =
    if a.toNat < b.toNat then 0xFFFFFFFF else if a.toNat = b.toNat then 0 else 1 := by
  simp only [fixCompare, BitVec.lt_def, ← BitVec.toNat_inj]
  split
  · rfl
  · split <;> rfl

/-- Settles O38: the scan and the numeric order give one outcome, whose word CMP writes to RESULT. -/
theorem cmpScansFromTheTopWord : Obligations.CmpScansFromTheTopWord := by
  intro s rs1 rs2
  refine ⟨orderingWord (fixCompare s.x[rs1] s.x[rs2]), by simp [toNat_encode, encodeFields],
    congrArg Host.Outcome.next (s.complete_setResult _), ?_, orderingWord_fixCompare _ _⟩
  rw [wordCompare_eq_fixCompare]
  rfl

/-! ### LDWL: the pairs one by one -/

/-- R103: pair m of a list of n pairs is its words 2m and 2m + 1. -/
theorem pairsOf_eq_map_range {n : Nat} {l : List Word} (hlen : l.length = 2 * n) :
    pairsOf l = (List.range n).map fun m => (l[2 * m]?.getD 0, l[2 * m + 1]?.getD 0) := by
  induction n generalizing l with
  | zero =>
    obtain rfl := List.length_eq_zero_iff.mp hlen
    rfl
  | succ n ih =>
    match l with
    | i :: v :: rest =>
      rw [pairsOf, ih (l := rest) (by simpa [Nat.mul_succ] using hlen), List.range_succ_eq_map]
      simp [Nat.mul_succ, Function.comp_def]

/-- R103: pair m of the pair buffer. -/
def State.pairAt (s : State) (m : Nat) : Word × Word := (s.pb[2 * m]?.getD 0, s.pb[2 * m + 1]?.getD 0)

theorem State.pairsOf_take_pb (s : State) {n : Nat} (hn : 2 * n ≤ 256) :
    pairsOf (s.pb.toList.take (2 * n)) = (List.range n).map s.pairAt := by
  rw [pairsOf_eq_map_range (n := n) (by simpa using hn)]
  apply List.map_congr_left
  intro m hm
  rw [List.mem_range] at hm
  rw [List.getElem?_take_of_lt (by omega), List.getElem?_take_of_lt (by omega), Vector.getElem?_toList,
    Vector.getElem?_toList, State.pairAt]

/-- R103: a pair notes an index of 64 or more. -/
theorem snd_applyPair (t : FixedInt × Bool) (p : Word × Word) :
    (applyPair t p).2 = (t.2 || decide (64 ≤ p.1.toNat)) := by
  unfold applyPair
  split <;> simp [*]

/-- R103: a pair sets the word it names and no other. -/
theorem wordOf_applyPair (t : FixedInt × Bool) (p : Word × Word) {j : Nat} (hj : j < 64) :
    wordOf (applyPair t p).1 j = if p.1.toNat = j then p.2 else wordOf t.1 j := by
  unfold applyPair
  split
  · rw [if_neg (by omega)]
  · split
    next h => rw [h, wordOf_setWord_self _ _ hj]
    next h => exact wordOf_setWord_of_ne _ _ hj (Ne.symm h)

/-- R103: the value and the note of a bad index after the first n of the pairs `ps`. -/
def applyPairs (ps : Nat → Word × Word) (n : Nat) : FixedInt × Bool :=
  ((List.range n).map ps).foldl applyPair (0, false)

theorem applyPairs_zero (ps : Nat → Word × Word) : applyPairs ps 0 = (0, false) := rfl

theorem applyPairs_succ (ps : Nat → Word × Word) (n : Nat) :
    applyPairs ps (n + 1) = applyPair (applyPairs ps n) (ps n) := by
  simp [applyPairs, List.range_succ]

/-- R103: some index of 64 or more is noted exactly if there is one. -/
theorem snd_applyPairs (ps : Nat → Word × Word) (n : Nat) :
    (applyPairs ps n).2 = true ↔ ∃ m : Nat, m < n ∧ 64 ≤ (ps m).1.toNat := by
  induction n with
  | zero => simp [applyPairs_zero]
  | succ n ih =>
    rw [applyPairs_succ, snd_applyPair, Bool.or_eq_true, ih, decide_eq_true_iff]
    constructor
    · rintro (⟨m, hm, hbad⟩ | hbad)
      · exact ⟨m, by omega, hbad⟩
      · exact ⟨n, by omega, hbad⟩
    · rintro ⟨m, hm, hbad⟩
      obtain hm | rfl := Nat.lt_succ_iff_lt_or_eq.mp hm
      · exact .inl ⟨m, hm, hbad⟩
      · exact .inr hbad

/-- R103: a word that no pair names stays 0. -/
theorem wordOf_applyPairs_of_unnamed (ps : Nat → Word × Word) {n j : Nat} (hj : j < 64)
    (hne : ∀ m : Nat, m < n → (ps m).1.toNat ≠ j) : wordOf (applyPairs ps n).1 j = 0 := by
  induction n with
  | zero => simp [applyPairs_zero, wordOf]
  | succ n ih =>
    rw [applyPairs_succ, wordOf_applyPair _ _ hj, if_neg (hne n (Nat.lt_succ_self n))]
    exact ih fun m hm => hne m (by omega)

/-- R103: a word holds the value of the last pair that names it. -/
theorem wordOf_applyPairs_of_last (ps : Nat → Word × Word) {n j m : Nat} (hj : j < 64) (hm : m < n)
    (hname : (ps m).1.toNat = j) (hlast : ∀ l : Nat, m < l → l < n → (ps l).1.toNat ≠ j) :
    wordOf (applyPairs ps n).1 j = (ps m).2 := by
  induction n with
  | zero => omega
  | succ n ih =>
    rw [applyPairs_succ, wordOf_applyPair _ _ hj]
    obtain hm | rfl := Nat.lt_succ_iff_lt_or_eq.mp hm
    · rw [if_neg (hlast n hm (Nat.lt_succ_self n))]
      exact ih hm fun l hml hln => hlast l hml (by omega)
    · rw [if_pos hname]

theorem State.fromWordList_take_pb (s : State) {n : Nat} (hn : 2 * n ≤ 256) :
    fromWordList (s.pb.toList.take (2 * n)) = ⟨(applyPairs s.pairAt n).1, false, (applyPairs s.pairAt n).2⟩ := by
  have hlen : (s.pb.toList.take (2 * n)).length = 2 * n := by simpa using hn
  rw [fromWordList, hlen, if_neg (by omega), s.pairsOf_take_pb hn]
  rfl

/-- R103: LDWL of an odd length. -/
theorem exec_ldwl_odd (s : State) (rd : RegIdx) {len : Imm12} (hlen : len.toNat ≤ 256) (hodd : len.toNat % 2 = 1) :
    exec (.ldwl rd len) s =
      .next (s.completedWith (s.x.set rd 0) s.result { s.flags with done := true, malf := true }) := by
  have hl : (s.pb.toList.take len.toNat).length % 2 = 1 := by simpa [Nat.min_eq_left hlen] using hodd
  rw [exec, execLdwl, immOf, fromWordList, if_pos hl]
  rfl

/-- R103: LDWL of an even length, the pairs n in number. -/
theorem exec_ldwl_even (s : State) (rd : RegIdx) {len : Imm12} {n : Nat} (hlen : len.toNat = 2 * n)
    (hn : 2 * n ≤ 256) :
    exec (.ldwl rd len) s = .next (s.completedWith (s.x.set rd (applyPairs s.pairAt n).1) s.result
      { s.flags with done := true, idx := s.flags.idx || (applyPairs s.pairAt n).2 }) := by
  rw [exec, execLdwl, immOf, hlen, s.fromWordList_take_pb hn]
  cases (applyPairs s.pairAt n).2 with
  | false => rw [Bool.or_false]; rfl
  | true => rw [Bool.or_true]; rfl

/-- Settles O35: an even list's value and note are those after its last pair, by induction on the pairs. -/
theorem ldwlBuildsTheListedWords : Obligations.LdwlBuildsTheListedWords := by
  intro s rd len hlen
  refine ⟨by simp [toNat_encode, encodeFields], exec_ldwl_odd s rd hlen, fun heven => ?_⟩
  exact ⟨_, _, exec_ldwl_even s rd (by omega) (by omega), snd_applyPairs s.pairAt (len.toNat / 2),
    fun j hne => wordOf_applyPairs_of_unnamed s.pairAt j.isLt hne,
    fun j m hm hname hlast => wordOf_applyPairs_of_last s.pairAt j.isLt hm hname hlast⟩

/-- Settles O60: a short list is written entry by entry and then its LDWL, a longer one word by word of its value. -/
theorem wordListBecomesHostWrites : Obligations.WordListBecomesHostWrites := by
  intro r l
  constructor
  · intro hle
    exact ⟨_, if_pos hle, by simp, fun m hm => by simp [hm, wr]⟩
  · intro hgt
    rw [loadList, if_neg (Nat.not_le.mpr hgt), wrx]
    exact ⟨by simp, fun j hj => by simp [wr, windowOffset, hj]⟩

end Sys2Proof.Machine
end

section
/-! Values as text on the host's side (spec R110, R111): which characters are digits, what a text of digits reads as,
and the digits of the printed form. -/

namespace Sys2Proof.Machine

/-! ### Digits and fillers -/

/-- R110 (3): a hex digit, upper case. -/
def upperHexChar (d : Nat) : Char := if d < 10 then Char.ofNat (48 + d) else Char.ofNat (55 + d)

theorem lowerHexDigits_eq : "0123456789abcdef".toList = (List.range 16).map hexChar := by decide

theorem upperHexDigits_eq : "0123456789ABCDEF".toList = (List.range 16).map upperHexChar := by decide

theorem hexDigit?_hexChar : ∀ d < 16, hexDigit? (hexChar d) = some d := by decide

theorem hexDigit?_upperHexChar : ∀ d < 16, hexDigit? (upperHexChar d) = some d := by decide

/-- R110 (3): the digits are those of either case, each with its value. -/
theorem hexDigit?_eq_some_iff {c : Char} {d : Nat} :
    hexDigit? c = some d ↔ d < 16 ∧ (hexChar d = c ∨ upperHexChar d = c) := by
  constructor
  · intro h
    have hc : Char.ofNat c.toNat = c := Char.ofNat_toNat c
    simp only [hexDigit?] at h
    split at h
    next hdecimal =>
      obtain rfl := Option.some.inj h
      exact ⟨by omega, .inl (by rw [hexChar, if_pos (by omega), Nat.add_sub_cancel' (by omega), hc])⟩
    split at h
    next hlower =>
      obtain rfl := Option.some.inj h
      exact ⟨by omega, .inl (by rw [hexChar, if_neg (by omega), Nat.add_sub_cancel' (by omega), hc])⟩
    split at h
    next hupper =>
      obtain rfl := Option.some.inj h
      exact ⟨by omega, .inr (by rw [upperHexChar, if_neg (by omega), Nat.add_sub_cancel' (by omega), hc])⟩
    next => cases h
  · rintro ⟨hd, rfl | rfl⟩
    · exact hexDigit?_hexChar d hd
    · exact hexDigit?_upperHexChar d hd

/-- R110 (1): the characters removed. -/
theorem isHexFiller_iff (c : Char) : isHexFiller c = true ↔ c ∈ [' ', '\t', '\n', '\x0b', '\x0c', '\r', '-'] := by
  simp only [isHexFiller, isHexSpace, Bool.or_eq_true, beq_iff_eq, ← Char.toNat_inj, List.mem_cons, List.not_mem_nil,
    or_false, or_assoc]
  rfl

/-! ### Reading -/

/-- R110 (3): a text has digits exactly if each of its characters is one. -/
theorem hexDigits?_eq_some_iff {l : List Char} {ds : List Nat} :
    hexDigits? l = some ds ↔ l.map hexDigit? = ds.map some := by
  induction l generalizing ds with
  | nil => cases ds <;> simp [hexDigits?]
  | cons c l ih => cases ds <;> simp [hexDigits?, Option.bind_eq_some_iff, ih]

theorem hexDigits?_eq_none {l : List Char} (h : ∃ c ∈ l, hexDigit? c = none) : hexDigits? l = none := by
  obtain ⟨c, hc, hnone⟩ := h
  by_contra hsome
  obtain ⟨ds, hds⟩ := Option.ne_none_iff_exists'.mp hsome
  have hmem : none ∈ ds.map some := by
    rw [← hexDigits?_eq_some_iff.mp hds, ← hnone]
    exact List.mem_map_of_mem hc
  simp at hmem

/-- The number that hex digits read from the most significant on continue from `acc`. -/
def hexFrom (acc : Nat) (ds : List Nat) : Nat := ds.foldl (fun acc d => 16 * acc + d) acc

theorem hexFrom_cons (acc d : Nat) (ds : List Nat) : hexFrom acc (d :: ds) = hexFrom (16 * acc + d) ds := rfl

theorem hexFrom_append (acc : Nat) (ds es : List Nat) : hexFrom acc (ds ++ es) = hexFrom (hexFrom acc ds) es :=
  List.foldl_append

/-- R110 (4): digits numbered from the right are digits read from the left. -/
theorem nibbleValue_reverse (ds : List Nat) : nibbleValue ds.reverse = hexFrom 0 ds := by
  induction ds using List.reverseRecOn with
  | nil => rfl
  | append_singleton ds d ih =>
    rw [List.reverse_concat, nibbleValue, ih, hexFrom_append, Nat.add_comm]
    rfl

theorem nibbleValue_take_add (l : List Nat) (n : Nat) :
    nibbleValue l = nibbleValue (l.take n) + 16 ^ n * nibbleValue (l.drop n) := by
  induction n generalizing l with
  | zero => simp [nibbleValue]
  | succ n ih =>
    cases l with
    | nil => simp [nibbleValue]
    | cons d l =>
      rw [List.take_succ_cons, List.drop_succ_cons, nibbleValue, nibbleValue, ih l]
      ring

/-- R110 (5): dropping the digits from number n on is the remainder modulo 16^n. -/
theorem nibbleValue_take_mod (l : List Nat) (n : Nat) :
    nibbleValue (l.take n) % 2 ^ (4 * n) = nibbleValue l % 2 ^ (4 * n) := by
  rw [nibbleValue_take_add l n, Nat.pow_mul, Nat.add_mul_mod_self_left]

theorem ofNat_nibbleValue_take (l : List Nat) :
    BitVec.ofNat 2048 (nibbleValue (l.take 512)) = BitVec.ofNat 2048 (nibbleValue l) := by
  apply BitVec.eq_of_toNat_eq
  rw [BitVec.toNat_ofNat, BitVec.toNat_ofNat]
  exact nibbleValue_take_mod l 512

section
variable {text body : List Char} (hbody : dropHexPrefix (text.filter fun c => !isHexFiller c) = body)
include hbody

/-- R110: a text whose characters but for fillers and prefix are digits reads as their number, wrapped. -/
theorem fromHex_of_digits {ds : List Nat} (hds : body.map hexDigit? = ds.map some) :
    fromHex text = some (BitVec.ofNat 2048 (hexFrom 0 ds)) := by
  rw [fromHex, hbody, hexDigits?_eq_some_iff.mpr hds, Option.map_some, ofNat_nibbleValue_take, nibbleValue_reverse]

/-- R110: a text with any other character has no value. -/
theorem fromHex_of_nondigit (h : ∃ c ∈ body, hexDigit? c = none) : fromHex text = none := by
  rw [fromHex, hbody, hexDigits?_eq_none h, Option.map_none]

end

theorem dropHexPrefix_of_unprefixed {l : List Char}
    (h : ∀ r : List Char, l ≠ '0' :: 'x' :: r ∧ l ≠ '0' :: 'X' :: r) : dropHexPrefix l = l := by
  unfold dropHexPrefix
  split
  next r => exact absurd rfl (h r).1
  next r => exact absurd rfl (h r).2
  next => rfl

/-- Settles O58: in each of the three cases the body is what the prefix's removal leaves, so the text reads as the
body's digits do. -/
theorem fromHexReadsTheNumberWrapped : Obligations.FromHexReadsTheNumberWrapped := by
  refine ⟨isHexFiller_iff, fun c d => ?_, fun text body hbody => ?_⟩
  · rw [hexDigit?_eq_some_iff, lowerHexDigits_eq, upperHexDigits_eq]
    simp [List.getElem?_eq_some_iff, and_or_left]
  · have hdrop : dropHexPrefix (text.filter fun c => !isHexFiller c) = body := by
      obtain h | h | ⟨h, hun⟩ := hbody
      · rw [h, dropHexPrefix]
      · rw [h, dropHexPrefix]
      · rw [h, dropHexPrefix_of_unprefixed hun]
    exact ⟨fun ds hds => fromHex_of_digits hdrop hds, fromHex_of_nondigit hdrop⟩

/-! ### Printing -/

theorem isHexFiller_hexChar : ∀ d < 16, isHexFiller (hexChar d) = false := by decide

theorem hexChar_beq_zero : ∀ d < 16, (hexChar d == '0') = (d == 0) := by decide

theorem hexChar_ne_x : ∀ d < 16, hexChar d ≠ 'x' ∧ hexChar d ≠ 'X' := by decide

/-- R111: the hex digits of a word, most significant first. -/
def wordNibbles (w : Word) : List Nat := (List.range 8).reverse.map fun p => w.toNat / 16 ^ p % 16

/-- R111: the digits of the words below index n, from n - 1 down. -/
def lowerNibbles (a : FixedInt) : Nat → List Nat
  | 0 => []
  | n + 1 => wordNibbles (wordOf a n) ++ lowerNibbles a n

/-- R111: the digits of a value printed from word n down, the leading zeros dropped. -/
def printedNibbles (a : FixedInt) (n : Nat) : List Nat :=
  (wordNibbles (wordOf a n)).dropWhile (· == 0) ++ lowerNibbles a n

theorem wordHex_eq_map (w : Word) : wordHex w = (wordNibbles w).map hexChar := by
  rw [wordHex, wordNibbles, List.map_map]
  rfl

theorem wordNibbles_lt (w : Word) : ∀ d ∈ wordNibbles w, d < 16 := by
  intro d hd
  obtain ⟨p, -, rfl⟩ := List.mem_map.mp hd
  exact Nat.mod_lt _ (by decide)

theorem dropWhile_wordNibbles_lt (w : Word) : ∀ d ∈ (wordNibbles w).dropWhile (· == 0), d < 16 :=
  fun d hd => wordNibbles_lt w d ((List.dropWhile_sublist _).mem hd)

theorem lowerNibbles_lt (a : FixedInt) (n : Nat) : ∀ d ∈ lowerNibbles a n, d < 16 := by
  induction n with
  | zero => nofun
  | succ n ih => exact fun d hd => (List.mem_append.mp hd).elim (wordNibbles_lt _ d) (ih d)

theorem printedNibbles_lt (a : FixedInt) (n : Nat) : ∀ d ∈ printedNibbles a n, d < 16 :=
  fun d hd => (List.mem_append.mp hd).elim (dropWhile_wordNibbles_lt _ d) (lowerNibbles_lt a n d)

/-- R110 (1): a printed digit is no filler. -/
theorem filter_map_hexChar {ds : List Nat} (hds : ∀ d ∈ ds, d < 16) :
    (ds.map hexChar).filter (fun c => !isHexFiller c) = ds.map hexChar := by
  rw [List.filter_eq_self, List.forall_mem_map]
  intro d hd
  rw [isHexFiller_hexChar d (hds d hd), Bool.not_false]

theorem filter_lowerWordsHex (a : FixedInt) (n : Nat) :
    (lowerWordsHex a n).filter (fun c => !isHexFiller c) = (lowerNibbles a n).map hexChar := by
  induction n with
  | zero => rfl
  | succ n ih =>
    rw [lowerWordsHex, List.cons_append, List.filter_cons_of_neg (by decide), List.filter_append, ih, wordHex_eq_map,
      filter_map_hexChar (wordNibbles_lt _), lowerNibbles, List.map_append]

theorem dropWhile_map_hexChar {ds : List Nat} (hds : ∀ d ∈ ds, d < 16) :
    (ds.map hexChar).dropWhile (· == '0') = (ds.dropWhile (· == 0)).map hexChar := by
  induction ds with
  | nil => rfl
  | cons d ds ih =>
    rw [List.forall_mem_cons] at hds
    obtain ⟨hd, hds⟩ := hds
    rw [List.map_cons, List.dropWhile_cons, List.dropWhile_cons, hexChar_beq_zero d hd, ih hds]
    split <;> rfl

/-- R111: the printed form of a value that is not 0, its hyphens removed. -/
theorem filter_toHexText {a : FixedInt} (h : a ≠ 0) : (toHexText a).filter (fun c => !isHexFiller c) =
    (printedNibbles a ((bitLength a - 1) / 32)).map hexChar := by
  rw [toHexText, if_neg h, List.filter_append, filter_lowerWordsHex, wordHex_eq_map,
    dropWhile_map_hexChar (wordNibbles_lt _), filter_map_hexChar (dropWhile_wordNibbles_lt _), printedNibbles,
    List.map_append]

/-- R110: a text of printed digits, which holds no prefix, reads as their number. -/
theorem fromHex_of_filter_eq_map_hexChar {text : List Char} {ds : List Nat} (hds : ∀ d ∈ ds, d < 16)
    (htext : text.filter (fun c => !isHexFiller c) = ds.map hexChar) :
    fromHex text = some (BitVec.ofNat 2048 (hexFrom 0 ds)) := by
  have hx (c : Char) (hc : c ∈ ds.map hexChar) : c ≠ 'x' ∧ c ≠ 'X' := by
    obtain ⟨d, hd, rfl⟩ := List.mem_map.mp hc
    exact hexChar_ne_x d (hds d hd)
  have hun (r : List Char) : ds.map hexChar ≠ '0' :: 'x' :: r ∧ ds.map hexChar ≠ '0' :: 'X' :: r :=
    ⟨fun h => (hx 'x' (by simp [h])).1 rfl, fun h => (hx 'X' (by simp [h])).2 rfl⟩
  have hbody : dropHexPrefix (text.filter fun c => !isHexFiller c) = ds.map hexChar := by
    rw [htext, dropHexPrefix_of_unprefixed hun]
  refine fromHex_of_digits hbody ?_
  rw [List.map_map]
  exact List.map_congr_left fun d hd => hexDigit?_hexChar d (hds d hd)

/-- R111: the low n hex digits of a number, most significant first, read as its remainder. -/
theorem hexFrom_nibbles (v n acc : Nat) :
    hexFrom acc ((List.range n).reverse.map fun p => v / 16 ^ p % 16) = acc * 16 ^ n + v % 16 ^ n := by
  induction n generalizing acc with
  | zero => simp [hexFrom, Nat.mod_one]
  | succ n ih =>
    rw [List.range_succ, List.reverse_concat, List.map_cons, hexFrom_cons, ih, Nat.pow_succ, Nat.mod_mul]
    ring

theorem hexFrom_wordNibbles (w : Word) (acc : Nat) : hexFrom acc (wordNibbles w) = acc * 2 ^ 32 + w.toNat :=
  (hexFrom_nibbles w.toNat 8 acc).trans (congrArg (acc * 2 ^ 32 + ·) (Nat.mod_eq_of_lt w.isLt))

theorem hexFrom_lowerNibbles (a : FixedInt) (n acc : Nat) :
    hexFrom acc (lowerNibbles a n) = acc * 2 ^ (32 * n) + a.toNat % 2 ^ (32 * n) := by
  induction n generalizing acc with
  | zero => simp [lowerNibbles, hexFrom, Nat.mod_one]
  | succ n ih =>
    rw [lowerNibbles, hexFrom_append, ih, hexFrom_wordNibbles, toNat_wordOf,
      show 32 * (n + 1) = 32 * n + 32 by omega, Nat.pow_add, Nat.mod_mul]
    ring

/-- Leading zeros do not change a hex number. -/
theorem hexFrom_dropWhile_zero (ds : List Nat) : hexFrom 0 (ds.dropWhile (· == 0)) = hexFrom 0 ds := by
  induction ds with
  | nil => rfl
  | cons d ds ih =>
    cases d with
    | zero => exact ih
    | succ d => rfl

/-- R111: printed from word n down, a value below 2^(32 (n + 1)) loses nothing. -/
theorem hexFrom_printedNibbles {a : FixedInt} {n : Nat} (h : a.toNat < 2 ^ (32 * (n + 1))) :
    hexFrom 0 (printedNibbles a n) = a.toNat := by
  calc hexFrom 0 (printedNibbles a n)
      = hexFrom 0 (lowerNibbles a (n + 1)) := by
        rw [printedNibbles, hexFrom_append, hexFrom_dropWhile_zero, ← hexFrom_append, lowerNibbles]
    _ = a.toNat := by rw [hexFrom_lowerNibbles, Nat.zero_mul, Nat.zero_add, Nat.mod_eq_of_lt h]

/-- Settles O57: the printed form is, but for hyphens, the digits from the word of the highest set bit down, and they
read as the value. -/
theorem printedValueReadsBack : Obligations.PrintedValueReadsBack := by
  intro a
  by_cases h : a = 0
  · rw [toHexText, if_pos h, h]
    exact fromHex_of_filter_eq_map_hexChar (ds := [0]) (by decide) (by decide)
  · have hlt : a.toNat < 2 ^ (32 * ((bitLength a - 1) / 32 + 1)) := bitLength_le_iff.mp (by omega)
    rw [fromHex_of_filter_eq_map_hexChar (printedNibbles_lt _ _) (filter_toHexText h), hexFrom_printedNibbles hlt,
      BitVec.ofNat_toNat, BitVec.setWidth_eq]

end Sys2Proof.Machine
end

section
/-! Layer 2 (spec R120 to R124): the word-by-word shifts, the scan for the highest set bit and the selection of one bit
give what the shifts, the bit length and the bit of the whole value are. -/

namespace Sys2Proof.Machine

/-! ### SHLW, SHL and SHR: words put together -/

/-- R8: a value given word by word is a value that has these words. -/
theorem ofWords_map_range_eq {f : Nat → Word} {a : FixedInt} (h : ∀ j < 64, f j = wordOf a j) :
    ofWords ((List.range 64).map f) = a :=
  eq_of_wordOf_eq fun j hj => (wordOf_ofWords_map f hj).trans (h j hj)

/-- R120: word j of a value moved up by k words is word j - k. -/
theorem wordOf_shiftLeft_words (a : FixedInt) (k : Nat) {j : Nat} (hj : j < 64) :
    wordOf (a <<< (32 * k)) j = if k ≤ j then wordOf a (j - k) else 0 := by
  apply BitVec.eq_of_getLsbD_eq
  intro b hb
  have hin : 32 * j + b < 2048 := by omega
  rw [getLsbD_wordOf, BitVec.getLsbD_shiftLeft]
  split
  case isTrue hkj =>
    have hge : ¬ 32 * j + b < 32 * k := by omega
    rw [getLsbD_wordOf, show 32 * j + b - 32 * k = 32 * (j - k) + b by omega]
    simp [hb, hin, hge]
  case isFalse hkj =>
    have hlt : 32 * j + b < 32 * k := by omega
    simp [hlt]

/-- R122: word j of a value moved down by q words is word j + q. -/
theorem wordOf_ushiftRight_words (a : FixedInt) (q j : Nat) :
    wordOf (a >>> (32 * q)) j = if j + q ≤ 63 then wordOf a (j + q) else 0 := by
  apply BitVec.eq_of_getLsbD_eq
  intro b hb
  rw [getLsbD_wordOf, BitVec.getLsbD_ushiftRight, decide_eq_true hb, Bool.true_and]
  split
  case isTrue hjq =>
    rw [getLsbD_wordOf, decide_eq_true hb, Bool.true_and, show 32 * q + (32 * j + b) = 32 * (j + q) + b by omega]
  case isFalse hjq =>
    rw [BitVec.getLsbD_of_ge _ _ (by omega)]
    simp

/-- R121: word j of a value moved up by less than a word takes its low bits from the word below. -/
theorem wordOf_shiftLeft_bits (u : FixedInt) {t : Nat} (ht : t < 32) {j : Nat} (hj : j < 64) :
    wordOf (u <<< t) j = (wordOf u j <<< t) ||| (if 1 ≤ j then wordOf u (j - 1) >>> (32 - t) else 0) := by
  apply BitVec.eq_of_getLsbD_eq
  intro b hb
  have hin : 32 * j + b < 2048 := by omega
  rw [getLsbD_wordOf, BitVec.getLsbD_shiftLeft, BitVec.getLsbD_or, BitVec.getLsbD_shiftLeft, getLsbD_wordOf]
  by_cases hbt : b < t
  · by_cases h1 : 1 ≤ j
    · have hge : ¬ 32 * j + b < t := by omega
      have hlow : 32 - t + b < 32 := by omega
      have hbit : 32 * j + b - t = 32 * (j - 1) + (32 - t + b) := by omega
      rw [if_pos h1, BitVec.getLsbD_ushiftRight, getLsbD_wordOf, hbit]
      simp [hb, hin, hbt, hge, hlow]
    · have hlt : 32 * j + b < t := by omega
      simp [h1, hbt, hlt]
  · have hge : ¬ 32 * j + b < t := by omega
    have hown : b - t < 32 := by omega
    have hbit : 32 * j + b - t = 32 * j + (b - t) := by omega
    have hcarry : (if 1 ≤ j then wordOf u (j - 1) >>> (32 - t) else 0).getLsbD b = false := by
      split
      · rw [BitVec.getLsbD_ushiftRight, BitVec.getLsbD_of_ge _ _ (by omega)]
      · exact BitVec.getLsbD_zero
    rw [hcarry, hbit]
    simp [hb, hin, hbt, hge, hown]

/-- R122: word j of a value moved down by less than a word takes its high bits from the word above. -/
theorem wordOf_ushiftRight_bits (u : FixedInt) {t : Nat} (ht : t < 32) (j : Nat) :
    wordOf (u >>> t) j = (wordOf u j >>> t) ||| (if j + 1 ≤ 63 then wordOf u (j + 1) <<< (32 - t) else 0) := by
  apply BitVec.eq_of_getLsbD_eq
  intro b hb
  rw [getLsbD_wordOf, BitVec.getLsbD_ushiftRight, BitVec.getLsbD_or, BitVec.getLsbD_ushiftRight, getLsbD_wordOf]
  by_cases hbt : t + b < 32
  · have hcarry : (if j + 1 ≤ 63 then wordOf u (j + 1) <<< (32 - t) else 0).getLsbD b = false := by
      split
      · rw [BitVec.getLsbD_shiftLeft, decide_eq_true (show b < 32 - t by omega)]
        simp
      · exact BitVec.getLsbD_zero
    rw [hcarry, show t + (32 * j + b) = 32 * j + (t + b) by omega]
    simp [hb, hbt]
  · by_cases h1 : j + 1 ≤ 63
    · have hge : ¬ b < 32 - t := by omega
      have hlow : b - (32 - t) < 32 := by omega
      have hbit : t + (32 * j + b) = 32 * (j + 1) + (b - (32 - t)) := by omega
      rw [if_pos h1, BitVec.getLsbD_shiftLeft, getLsbD_wordOf, hbit]
      simp [hb, hbt, hge, hlow]
    · rw [BitVec.getLsbD_of_ge u _ (by omega)]
      simp [h1, hbt]

/-- R120: the word move is the shift of the whole value. -/
theorem wordShlw_eq_shiftWordsUp (a : FixedInt) (k : Nat) : wordShlw a k = shiftWordsUp a k :=
  ofWords_map_range_eq fun _ hj => (wordOf_shiftLeft_words a k hj).symm

/-- R122: the word move down is the shift of the whole value. -/
theorem wordShrw_eq_ushiftRight (a : FixedInt) (q : Nat) : wordShrw a q = a >>> (32 * q) :=
  ofWords_map_range_eq fun j _ => (wordOf_ushiftRight_words a q j).symm

/-- R121: the two stages together are the shift of the whole value, the step that is skipped being a shift by 0. -/
theorem wordShl_eq_shiftBitsUp (a : FixedInt) (n : Nat) : wordShl a n = shiftBitsUp a n := by
  have hstages : shiftBitsUp a n = a <<< (32 * (n / 32)) <<< (n % 32) := by
    rw [← BitVec.shiftLeft_add, Nat.div_add_mod, shiftBitsUp]
  rw [wordShl, wordShlw_eq_shiftWordsUp, shiftWordsUp, hstages]
  split
  case isTrue h0 => rw [h0, BitVec.shiftLeft_zero]
  case isFalse =>
    exact ofWords_map_range_eq fun _ hj => (wordOf_shiftLeft_bits _ (Nat.mod_lt n (by decide)) hj).symm

/-- R122: the two stages together are the shift of the whole value. -/
theorem wordShr_eq_shiftBitsDown (a : FixedInt) (n : Nat) : wordShr a n = shiftBitsDown a n := by
  have hstages : shiftBitsDown a n = a >>> (32 * (n / 32)) >>> (n % 32) := by
    rw [← BitVec.shiftRight_add, Nat.div_add_mod, shiftBitsDown]
  rw [wordShr, wordShrw_eq_ushiftRight, hstages]
  split
  case isTrue h0 => rw [h0, BitVec.ushiftRight_zero]
  case isFalse =>
    exact ofWords_map_range_eq fun j _ => (wordOf_ushiftRight_bits _ (Nat.mod_lt n (by decide)) j).symm

/-- Settles O40: the word move is the shift of the whole value by 32 bits a place, which is what SHLW writes. -/
theorem shlwMovesWordsUp : Obligations.ShlwMovesWordsUp := by
  intro s rd rs1 k
  simp only [wordShlw_eq_shiftWordsUp]
  exact ⟨by simp [toNat_encode, encodeFields],
    congrArg Host.Outcome.next (s.complete_setReg rd (shiftWordsUp s.x[rs1] k.toNat)),
    fun m => toNat_shiftBitsUp s.x[rs1] (32 * m)⟩

/-- Settles O41: the two-stage shift is the shift of the whole value, which is what SHL writes. -/
theorem shlShiftsWordsThenBits : Obligations.ShlShiftsWordsThenBits := by
  intro s rd rs1 n
  simp only [wordShl_eq_shiftBitsUp]
  exact ⟨by simp [toNat_encode, encodeFields],
    congrArg Host.Outcome.next (s.complete_setReg rd (shiftBitsUp s.x[rs1] n.toNat)), toNat_shiftBitsUp s.x[rs1]⟩

/-- Settles O42: the two-stage shift down is the shift of the whole value, which is what SHR writes. -/
theorem shrShiftsWordsThenBits : Obligations.ShrShiftsWordsThenBits := by
  intro s rd rs1 n
  simp only [wordShr_eq_shiftBitsDown]
  exact ⟨by simp [toNat_encode, encodeFields],
    congrArg Host.Outcome.next (s.complete_setReg rd (shiftBitsDown s.x[rs1] n.toNat)), toNat_shiftBitsDown s.x[rs1]⟩

/-! ### BITLEN: the scan from the top word -/

/-- R123: the top word of a value below 2^(32 (n + 1)) holds every bit from 32 n up. -/
theorem toNat_wordOf_of_lt {a : FixedInt} {n : Nat} (h : a.toNat < 2 ^ (32 * (n + 1))) :
    (wordOf a n).toNat = a.toNat / 2 ^ (32 * n) := by
  rw [toNat_wordOf, Nat.mod_eq_of_lt]
  exact Nat.div_lt_of_lt_mul (by rwa [← Nat.pow_add])

theorem wordOf_ne_zero_iff {a : FixedInt} {n : Nat} (h : a.toNat < 2 ^ (32 * (n + 1))) :
    wordOf a n ≠ 0 ↔ 2 ^ (32 * n) ≤ a.toNat := by
  rw [ne_eq, ← BitVec.toNat_inj, toNat_wordOf_of_lt h, show (0 : Word).toNat = 0 from rfl,
    Nat.div_eq_zero_iff_lt (Nat.two_pow_pos (32 * n)), Nat.not_lt]

/-- R123: the highest set bit of a number is k places above that of its part from bit k up. -/
theorem log2_div_two_pow_add {v k : Nat} (h : 2 ^ k ≤ v) : k + (v / 2 ^ k).log2 = v.log2 := by
  have hv : v ≠ 0 := Nat.ne_of_gt (Nat.lt_of_lt_of_le (Nat.two_pow_pos k) h)
  have hk : k ≤ v.log2 := (Nat.le_log2 hv).mpr h
  rw [Nat.log2_eq_log_two] at hk ⊢
  rw [Nat.log2_eq_log_two, Nat.log_div_base_pow, Nat.add_sub_of_le hk]

/-- R123: the scan from word n - 1 down finds the bit length of a value that has no bit from 32 n up. -/
theorem scanBitLength_eq_bitLength {a : FixedInt} {n : Nat} (h : a.toNat < 2 ^ (32 * n)) :
    scanBitLength a n = bitLength a := by
  induction n with
  | zero => exact (Nat.le_zero.mp (bitLength_le_iff.mpr h)).symm
  | succ n ih =>
    rw [scanBitLength]
    split
    case isTrue hne =>
      have hge := (wordOf_ne_zero_iff h).mp hne
      have ha : a ≠ 0 := fun h0 => hne (by rw [h0]; exact BitVec.extractLsb'_zero)
      rw [bitLength, if_neg ha, toNat_wordOf_of_lt h, log2_div_two_pow_add hge]
    case isFalse hzero => exact ih (Nat.lt_of_not_le ((wordOf_ne_zero_iff h).not.mp hzero))

theorem wordBitLength_eq_bitLength (a : FixedInt) : wordBitLength a = bitLength a :=
  scanBitLength_eq_bitLength (n := 64) a.isLt

/-- Settles O43: the scan finds the bit length, which fits in a word. -/
theorem bitlenScansFromTheTopWord : Obligations.BitlenScansFromTheTopWord := by
  intro s rs1
  have hle := bitLength_le s.x[rs1]
  have hv : (BitVec.ofNat 32 (bitLength s.x[rs1])).toNat = bitLength s.x[rs1] :=
    BitVec.toNat_ofNat _ _ |>.trans (Nat.mod_eq_of_lt (by omega))
  refine ⟨BitVec.ofNat 32 (bitLength s.x[rs1]), by simp [toNat_encode, encodeFields],
    congrArg Host.Outcome.next (s.complete_setResult _), ?_⟩
  rw [hv, wordBitLength_eq_bitLength]
  exact ⟨rfl, hle, fun b => bitLength_le_iff.symm⟩

/-! ### GETBIT: one bit of one word -/

/-- R124: bit i mod 32 of word i / 32 is bit i of the value. -/
theorem wordGetBit_eq_getBitWord (a : FixedInt) (i : Nat) : wordGetBit a i = getBitWord a i := by
  have hbit : (wordOf a (i / 32) >>> (i % 32)).getLsbD 0 = fixGetBit a i := by
    rw [BitVec.getLsbD_ushiftRight, getLsbD_wordOf, Nat.add_zero, decide_eq_true (Nat.mod_lt i (by decide)),
      Bool.true_and, Nat.div_add_mod, fixGetBit]
  rw [wordGetBit, getBitWord, ← hbit]
  exact congrArg _ BitVec.and_one_eq_setWidth_ofBool_getLsbD

/-- R124: the word of bit i, as a number. -/
theorem setWidth_ofBool_fixGetBit (a : FixedInt) (i : Nat) :
    (BitVec.ofBool (fixGetBit a i)).setWidth 32 = BitVec.ofNat 32 (a.toNat / 2 ^ i % 2) := by
  rw [← BitVec.ofNat_toNat, BitVec.toNat_ofBool, fixGetBit_eq, Nat.toNat_testBit]

/-- Settles O44: the bit taken from its word is the bit of the value. -/
theorem getbitReadsOneBit : Obligations.GetbitReadsOneBit := by
  intro s rs1 i
  refine ⟨getBitWord s.x[rs1] i.toNat, by simp [toNat_encode, encodeFields],
    congrArg Host.Outcome.next (s.complete_setResult _), (wordGetBit_eq_getBitWord _ _).symm, ?_⟩
  rw [getBitWord, setWidth_ofBool_fixGetBit]

end Sys2Proof.Machine
end

section
/-! Layer 3 (spec R130, R131): the carried word products are the product by a word, and the schoolbook sum of shifted
partial products is the product of the whole values. -/

namespace Sys2Proof.Machine

/-! ### MULW: one word of the multiplier -/

/-- R130: MulWord as a number. -/
theorem toNat_fixMulWord (a : FixedInt) (w : Word) : (fixMulWord a w).toNat = a.toNat * w.toNat % 2 ^ 2048 := by
  rw [fixMulWord, BitVec.toNat_mul, BitVec.toNat_setWidth_of_le (by decide)]

/-- R130: the carry out of the last word is what the remainder drops. -/
theorem valOf_rippleMul (w : Word) (as : List Word) (c : Nat) :
    valOf (rippleMul w as c) = (valOf as * w.toNat + c) % 2 ^ (32 * as.length) := by
  induction as generalizing c with
  | nil => simp [rippleMul, valOf, Nat.mod_one]
  | cons a as ih =>
    have hproduct : valOf (a :: as) * w.toNat + c = a.toNat * w.toNat + c + 2 ^ 32 * (valOf as * w.toNat) := by
      rw [valOf]
      ring
    rw [rippleMul, valOf, ih, BitVec.toNat_ofNat, hproduct, List.length_cons,
      show 32 * (as.length + 1) = 32 + 32 * as.length by omega, Nat.pow_add, Nat.mod_mul, Nat.add_mul_mod_self_left,
      Nat.add_mul_div_left _ _ (by decide), Nat.add_comm (valOf as * w.toNat)]

/-- R130: the carried word products are the product in the ring. -/
theorem wordMulWord_eq_fixMulWord (a : FixedInt) (w : Word) : wordMulWord a w = fixMulWord a w := by
  apply BitVec.eq_of_toNat_eq
  rw [wordMulWord, ofWords, valOf_rippleMul, valOf_wordsOf, length_wordsOf, BitVec.toNat_ofNat, Nat.mod_mod,
    toNat_fixMulWord]
  rfl

/-- Settles O45: the carried word products are the ring's product by a word, which MULW writes for word 0. -/
theorem mulwMultipliesByTheLowWord : Obligations.MulwMultipliesByTheLowWord := by
  intro s rd rs1 rs2
  simp only [wordMulWord_eq_fixMulWord]
  exact ⟨by simp [toNat_encode, encodeFields],
    congrArg Host.Outcome.next (s.complete_setReg rd (fixMulWord s.x[rs1] (wordOf s.x[rs2] 0))),
    toNat_fixMulWord s.x[rs1], (toNat_wordOf s.x[rs2] 0).trans (congrArg (· % 2 ^ 32) (Nat.div_one _))⟩

/-! ### MUL: the sum over the words of the multiplier -/

/-- R131: one step adds the product by one word, moved up by the word's index; the partial product's truncation before
its shift and the sum's after it come to one remainder. -/
theorem toNat_schoolbookStep (a b acc : FixedInt) (i : Nat) : (schoolbookStep a b acc i).toNat =
    (acc.toNat + a.toNat * (wordOf b i).toNat * 2 ^ (32 * i)) % 2 ^ 2048 := by
  rw [schoolbookStep, wordAdd_eq_fixAdd, wordShlw_eq_shiftWordsUp, wordMulWord_eq_fixMulWord, fixAdd,
    BitVec.toNat_add, shiftWordsUp, BitVec.toNat_shiftLeft, Nat.shiftLeft_eq, toNat_fixMulWord, Nat.add_mod_mod]
  exact Nat.ModEq.add_left _ ((Nat.mod_modEq _ _).mul_right _)

/-- R131: the sum over the low n words of B is the product by the number they stand for. -/
theorem toNat_foldl_schoolbookStep (a b : FixedInt) (n : Nat) :
    ((List.range n).foldl (schoolbookStep a b) 0).toNat = a.toNat * (b.toNat % 2 ^ (32 * n)) % 2 ^ 2048 := by
  induction n with
  | zero => simp [Nat.mod_one]
  | succ n ih =>
    have hwords : b.toNat % 2 ^ (32 * (n + 1)) = b.toNat % 2 ^ (32 * n) + 2 ^ (32 * n) * (wordOf b n).toNat := by
      rw [show 32 * (n + 1) = 32 * n + 32 by omega, Nat.pow_add, Nat.mod_mul, toNat_wordOf]
    rw [List.range_succ, List.foldl_concat, toNat_schoolbookStep, ih, Nat.mod_add_mod, hwords, Nat.mul_add,
      Nat.mul_assoc a.toNat, Nat.mul_comm (2 ^ (32 * n))]

/-- R131: the schoolbook sum over all 64 words is the product in the ring. -/
theorem wordMul_eq_fixMul (a b : FixedInt) : wordMul a b = fixMul a b := by
  apply BitVec.eq_of_toNat_eq
  rw [wordMul, toNat_foldl_schoolbookStep, Nat.mod_eq_of_lt (a := b.toNat) b.isLt, toNat_fixMul]

/-- Settles O46: the schoolbook sum is the ring's product, with which MUL completes. -/
theorem mulIsSchoolbookMultiplication : Obligations.MulIsSchoolbookMultiplication := by
  intro s rd rs1 rs2
  rw [wordMul_eq_fixMul]
  exact ⟨by simp [toNat_encode, encodeFields],
    congrArg Host.Outcome.next (s.complete_setReg rd (fixMul s.x[rs1] s.x[rs2])), toNat_fixMul _ _⟩

end Sys2Proof.Machine
end

section
/-! Layer 4 (spec R140, R141): DivMod's answer as a whole, and the completion of a command that may raise DZ. -/

namespace Sys2Proof.Machine

/-- R140, R182: the completion of a command whose last act is the test for a zero divisor. -/
theorem State.complete_raiseIf_divByZero (s : State) (b : Bool) : (s.raiseIf b .divByZero).complete =
    s.completedWith s.x s.result { s.flags with done := true, dz := s.flags.dz || b } := by
  cases b with
  | false =>
    rw [Bool.or_false]
    rfl
  | true =>
    rw [Bool.or_true]
    rfl

/-- R141: for a divisor that is not Zero, DivMod answers the floor quotient and the remainder, without DivByZero. -/
theorem divMod_of_ne_zero (a : FixedInt) {b : FixedInt} (hb : b ≠ 0) : divMod a b =
    ⟨BitVec.ofNat 2048 (a.toNat / b.toNat), BitVec.ofNat 2048 (a.toNat % b.toNat), false⟩ := by
  obtain ⟨hq, hr, hz⟩ := divMod_spec a hb
  rw [← hq, ← hr, ← hz, BitVec.ofNat_toNat, BitVec.ofNat_toNat, BitVec.setWidth_eq, BitVec.setWidth_eq]

/-- R140: DIVMOD completes with what DivMod answers, the remainder written last. -/
theorem exec_divmod (s : State) (rd r4 rs1 rs2 : RegIdx) {q r : FixedInt} {byZero : Bool}
    (hd : divMod s.x[rs1] s.x[rs2] = ⟨q, r, byZero⟩) : exec (.divmod rd r4 rs1 rs2) s =
      .next (s.completedWith ((s.x.set rd q).set r4 r) s.result
        { s.flags with done := true, dz := s.flags.dz || byZero }) := by
  have hreg : divMod (s.reg rs1) (s.reg rs2) = ⟨q, r, byZero⟩ := hd
  calc exec (.divmod rd r4 rs1 rs2) s
    _ = .next (((s.setReg rd q).setReg r4 r).raiseIf byZero .divByZero).complete := by
      simp only [exec, execDivmod, hreg]
    _ = _ := congrArg Host.Outcome.next (State.complete_raiseIf_divByZero ((s.setReg rd q).setReg r4 r) byZero)

/-- Settles O47: DIVMOD completes with DivMod's answer, which is exact for a divisor that is not Zero, and zeros with
DivByZero for Zero. -/
theorem divmodIsExact : Obligations.DivmodIsExact := by
  intro s rd r4 rs1 rs2
  refine ⟨by simp [toNat_encode, encodeFields], fun hne => ?_, fun hzero => ?_⟩
  · rw [exec_divmod s rd r4 rs1 rs2 (divMod_of_ne_zero _ hne), Bool.or_false]
  · have hd : divMod s.x[rs1] s.x[rs2] = ⟨0, 0, true⟩ := by rw [hzero, divMod_zero]
    rw [exec_divmod s rd r4 rs1 rs2 hd, Bool.or_true]

end Sys2Proof.Machine
end

section
/-! Layer 5, the ring and its divisors (spec R150 to R153): the value of POW's, GCD's and LCM's function as a whole, with
which the command completes. -/

namespace Sys2Proof.Machine

/-! ### POW -/

/-- R150: POW's function is the power in the ring. -/
theorem fixPow_eq_ofNat (a b : FixedInt) : fixPow a b = BitVec.ofNat 2048 (a.toNat ^ b.toNat) := by
  apply BitVec.eq_of_toNat_eq
  rw [toNat_fixPow, BitVec.toNat_ofNat]

/-- Settles O48: square-and-multiply is the power in the ring, with which POW completes. -/
theorem powIsThePowerModuloCapacity : Obligations.PowIsThePowerModuloCapacity := by
  intro s rd rs1 rs2
  rw [← fixPow_eq_ofNat]
  exact ⟨by simp [toNat_encode, encodeFields],
    congrArg Host.Outcome.next (s.complete_setReg rd (fixPow s.x[rs1] s.x[rs2]))⟩

/-! ### GCD -/

/-- R151: Stein's algorithm gives the greatest common divisor. -/
theorem fixGcd_eq_ofNat (a b : FixedInt) : fixGcd a b = BitVec.ofNat 2048 (Nat.gcd a.toNat b.toNat) := by
  rw [← toNat_fixGcd, BitVec.ofNat_toNat, BitVec.setWidth_eq]

/-- Settles O49: Stein's algorithm gives the greatest common divisor, with which GCD completes. -/
theorem gcdIsTheGreatestCommonDivisor : Obligations.GcdIsTheGreatestCommonDivisor := by
  intro s rd rs1 rs2
  rw [← fixGcd_eq_ofNat]
  exact ⟨by simp [toNat_encode, encodeFields],
    congrArg Host.Outcome.next (s.complete_setReg rd (fixGcd s.x[rs1] s.x[rs2]))⟩

/-! ### LCM -/

/-- R151: operands that are not Zero have a gcd that is not Zero. -/
theorem fixGcd_ne_zero {a : FixedInt} (ha : a ≠ 0) (b : FixedInt) : fixGcd a b ≠ 0 := by
  rw [toNat_ne_zero, toNat_fixGcd]
  exact Nat.gcd_ne_zero_left (toNat_ne_zero.mp ha)

/-- R153: the quotient of one operand by the gcd, times the other, is the least common multiple in the ring. -/
theorem fixMul_divMod_fixGcd {a : FixedInt} (ha : a ≠ 0) (b : FixedInt) :
    fixMul (divMod a (fixGcd a b)).q b = BitVec.ofNat 2048 (Nat.lcm a.toNat b.toNat) := by
  have hlcm : a.toNat / Nat.gcd a.toNat b.toNat * b.toNat = Nat.lcm a.toNat b.toNat :=
    Nat.div_mul_right_comm (Nat.gcd_dvd_left ..) _
  apply BitVec.eq_of_toNat_eq
  rw [toNat_fixMul, (divMod_spec a (fixGcd_ne_zero ha b)).1, toNat_fixGcd, hlcm, BitVec.toNat_ofNat]

/-- R153: LCM completes with the least common multiple, its division raising nothing. -/
theorem execLcm_eq (s : State) (rd rs1 rs2 : RegIdx) : execLcm rd rs1 rs2 s =
    .next (s.setReg rd (BitVec.ofNat 2048 (Nat.lcm (s.reg rs1).toNat (s.reg rs2).toNat))).complete := by
  simp only [execLcm]
  split
  · next hzero =>
    have hlcm : Nat.lcm (s.reg rs1).toNat (s.reg rs2).toNat = 0 := by
      rcases hzero with h | h <;> simp [h]
    rw [hlcm]
    rfl
  · next hne =>
    have ha : s.reg rs1 ≠ 0 := fun h => hne (.inl h)
    rw [fixMul_divMod_fixGcd ha, (divMod_spec (s.reg rs1) (fixGcd_ne_zero ha (s.reg rs2))).2.2]
    rfl

/-- Settles O50: the quotient by the gcd, times the other operand, is the least common multiple in the ring. -/
theorem lcmIsTheLeastCommonMultipleWrapped : Obligations.LcmIsTheLeastCommonMultipleWrapped := fun s rd rs1 rs2 =>
  ⟨by simp [toNat_encode, encodeFields], (execLcm_eq s rd rs1 rs2).trans
    (congrArg Host.Outcome.next (s.complete_setReg rd _))⟩

end Sys2Proof.Machine
end

section
/-! Layer 5, Barrett reduction (spec R154 to R157, R159): the Barrett factor, the two correction loops, and the error of
the estimate they correct. -/

namespace Sys2Proof.Machine

/-- R32, R182: the completion of a command that writes one register and then tests for a zero divisor. -/
theorem State.complete_setReg_raiseIf_divByZero (s : State) (r : RegIdx) (v : FixedInt) (b : Bool) :
    ((s.setReg r v).raiseIf b .divByZero).complete =
      s.completedWith (s.x.set r v) s.result { s.flags with done := true, dz := s.flags.dz || b } :=
  (s.setReg r v).complete_raiseIf_divByZero b

/-! ### BMU -/

/-- R123: the bit length of a number between two neighbouring powers of 2. -/
theorem bitLength_eq_of_lt {a : FixedInt} {k : Nat} (hk : 1 ≤ k) (hlo : 2 ^ (k - 1) ≤ a.toNat) (hhi : a.toNat < 2 ^ k) :
    bitLength a = k := by
  have hle : bitLength a ≤ k := bitLength_le_iff.mpr hhi
  have hge : ¬ bitLength a ≤ k - 1 := fun h => Nat.not_lt_of_le hlo (bitLength_le_iff.mp h)
  omega

theorem ne_zero_of_two_pow_le {a : FixedInt} {k : Nat} (h : 2 ^ k ≤ a.toNat) : a ≠ 0 :=
  toNat_ne_zero.mpr (Nat.lt_of_lt_of_le (Nat.two_pow_pos k) h).ne'

/-- R154: the Barrett factor, exact for a modulus of at most 1023 bits. -/
theorem toNat_barrettMu_of_lt {n : FixedInt} (hn : n ≠ 0) (hk : bitLength n ≤ 1023) :
    (barrettMu n).q.toNat = 2 ^ (2 * bitLength n) / n.toNat := by
  rw [(toNat_barrettMu hn).1, Nat.mod_eq_of_lt (Nat.pow_lt_pow_right (by decide) (by omega))]

/-- R154: for a modulus of 1024 bits or more the power of 2 wraps to 0, and so does the factor. -/
theorem barrettMu_q_of_le {n : FixedInt} (hn : 2 ^ 1023 ≤ n.toNat) : (barrettMu n).q = 0 := by
  have hk : ¬ bitLength n ≤ 1023 := fun h => Nat.not_lt_of_le hn (bitLength_le_iff.mp h)
  have hwrap : 2 ^ (2 * bitLength n) % 2 ^ 2048 = 0 :=
    Nat.mod_eq_zero_of_dvd (Nat.pow_dvd_pow 2 (by omega))
  apply BitVec.eq_of_toNat_eq
  rw [(toNat_barrettMu (ne_zero_of_two_pow_le hn)).1, hwrap, Nat.zero_div, toNat_fixZero]

/-- R155: BMU completes with what BarrettMu answers. -/
theorem exec_bmu (s : State) (rd rs1 : RegIdx) : exec (.bmu rd rs1) s =
    .next (s.completedWith (s.x.set rd (barrettMu s.x[rs1]).q) s.result
      { s.flags with done := true, dz := s.flags.dz || (barrettMu s.x[rs1]).byZero }) :=
  congrArg Host.Outcome.next (s.complete_setReg_raiseIf_divByZero rd _ _)

/-- R155: for a modulus that is not Zero, BMU raises nothing. -/
theorem exec_bmu_of_ne_zero {s : State} {rs1 : RegIdx} (rd : RegIdx) {q : FixedInt} (hn : s.x[rs1] ≠ 0)
    (hq : (barrettMu s.x[rs1]).q = q) : exec (.bmu rd rs1) s =
      .next (s.completedWith (s.x.set rd q) s.result { s.flags with done := true }) := by
  rw [exec_bmu, hq, (toNat_barrettMu hn).2, Bool.or_false]

/-- Settles O51: BMU completes with the Barrett factor, by the three ranges of the modulus. -/
theorem bmuIsTheBarrettReciprocal : Obligations.BmuIsTheBarrettReciprocal := by
  intro s rd rs1
  refine ⟨by simp [toNat_encode, encodeFields], fun k hk1 hk hlo hhi => ?_, fun hbig => ?_, fun hzero => ?_⟩
  · have hn := ne_zero_of_two_pow_le hlo
    have hlen := bitLength_eq_of_lt hk1 hlo hhi
    apply exec_bmu_of_ne_zero rd hn
    rw [← hlen, ← toNat_barrettMu_of_lt hn (hlen ▸ hk), BitVec.ofNat_toNat, BitVec.setWidth_eq]
  · exact exec_bmu_of_ne_zero rd (ne_zero_of_two_pow_le hbig) (barrettMu_q_of_le hbig)
  · rw [exec_bmu, hzero, barrettMu_zero, Bool.or_true]

/-! ### BRED -/

/-- R157: BRED completes with what Reduce answers. -/
theorem exec_bred (s : State) (rd rs1 rs2 rs3 : RegIdx) : exec (.bred rd rs1 rs2 rs3) s =
    .next (s.completedWith (s.x.set rd (fixReduce s.x[rs1] s.x[rs2] s.x[rs3]).value) s.result
      { s.flags with done := true, dz := s.flags.dz || (fixReduce s.x[rs1] s.x[rs2] s.x[rs3]).byZero }) :=
  congrArg Host.Outcome.next (s.complete_setReg_raiseIf_divByZero rd _ _)

/-- Settles O52: BRED completes with Reduce's answer, the remainder whatever μ is, or zero and DivByZero for Zero. -/
theorem bredIsTheRemainderForEveryMu : Obligations.BredIsTheRemainderForEveryMu := by
  intro s rd rs1 rs2 rs3
  refine ⟨by simp [toNat_encode, encodeFields], fun hne => ?_, fun hzero => ?_⟩
  · obtain ⟨hvalue, hflag⟩ := fixReduce_spec s.x[rs1] s.x[rs3] hne
    rw [exec_bred, hflag, ← hvalue, BitVec.ofNat_toNat, BitVec.setWidth_eq, Bool.or_false]
  · rw [exec_bred, hzero, fixReduce_zero, Bool.or_true]

/-! ### The correction loops -/

/-- R156: the first loop takes a difference that is not negative to its remainder. -/
theorem correctDown_of_nonneg {n : Int} (fuel : Nat) {r : Int} (hr : 0 ≤ r) (hfuel : r < fuel * n) :
    correctDown n fuel r = some (r % n) := by
  induction fuel generalizing r with
  | zero => omega
  | succ fuel ih =>
    rw [correctDown]
    split
    · next hle =>
      have hrest : r - n < fuel * n := by
        rw [Int.natCast_succ, Int.add_mul] at hfuel
        omega
      rw [ih (by omega) hrest, Int.sub_emod_right]
    · next hlt => rw [Int.emod_eq_of_lt hr (by omega)]

/-- R156: the second loop takes a difference below n to its Euclidean remainder. -/
theorem correctUp_of_lt {n : Int} (fuel : Nat) {r : Int} (hr : r < n) (hfuel : n ≤ r + fuel * n) :
    correctUp n fuel r = some (r % n) := by
  induction fuel generalizing r with
  | zero => omega
  | succ fuel ih =>
    rw [correctUp]
    split
    · next hneg =>
      have hrest : n ≤ r + n + fuel * n := by
        rw [Int.natCast_succ, Int.add_mul] at hfuel
        omega
      rw [ih (by omega) hrest, Int.add_emod_right]
    · next hnonneg => rw [Int.emod_eq_of_lt (by omega) hr]

/-- R156: with more fuel than the difference is large, both loops together end in its Euclidean remainder. A difference
of n or more is the first loop's, any other the second's. -/
theorem correctDown_bind_correctUp {n d : Int} {fuel : Nat} (hn : 0 < n) (hhi : d < fuel) (hlo : -d < fuel) :
    (correctDown n fuel d).bind (correctUp n fuel) = some (d % n) := by
  obtain ⟨f, rfl⟩ : ∃ f, fuel = f + 1 := ⟨fuel - 1, by omega⟩
  have hfuel : (f : Int) ≤ f * n := le_mul_of_one_le_right (Int.natCast_nonneg f) hn
  rw [Int.natCast_succ] at hhi hlo
  have hexpand : ((f + 1 : Nat) : Int) * n = f * n + n := by
    rw [Int.natCast_succ, Int.add_mul, Int.one_mul]
  by_cases hd : n ≤ d
  · rw [correctDown_of_nonneg (f + 1) (by omega) (by omega), Option.bind_some,
      correctUp_of_lt (f + 1) (Int.emod_lt_of_pos d hn) (by have := Int.emod_nonneg d hn.ne'; omega), Int.emod_emod]
  · rw [correctDown, if_neg hd, Option.bind_some, correctUp_of_lt (f + 1) (by omega) (by omega)]

/-- R159: p is a multiple of n, so taking it away keeps the remainder. -/
theorem sub_barrettProduct_emod (x n mu : FixedInt) :
    ((x.toNat : Int) - (barrettProduct x n mu).toNat) % n.toNat = (x.toNat % n.toNat : Nat) := by
  rw [toNat_barrettProduct, Int.natCast_mul, Int.sub_mul_emod_self_right, Int.natCast_emod]

/-- Settles O53: fuel above x + p is more than the difference is large, so the loops end in its Euclidean remainder. -/
theorem correctionLoopsEndInTheReducedValue : Obligations.CorrectionLoopsEndInTheReducedValue := by
  intro x n mu hn
  refine ⟨x.toNat + (barrettProduct x n mu).toNat + 1, fun fuel hfuel => ?_⟩
  have hpos := Nat.pos_of_ne_zero (toNat_ne_zero.mp hn)
  rw [(fixReduce_spec x mu hn).1, ← sub_barrettProduct_emod x n mu, reduceByLoops]
  exact correctDown_bind_correctUp (by omega) (by omega) (by omega)

/-! ### The error of Barrett's estimate -/

/-- R159, Barrett's error bound on numbers: P stands for 2^(k-1) and Q for 2^(k+1). Each of the two floors loses less
than one unit, which times the other factor is at most Q, and the last floor loses less than one more. -/
theorem barrett_estimate {x n P Q : Nat} (hP : 0 < P) (hn : P ≤ n) (hx : x / P < Q) :
    x / P * (P * Q / n) / Q * n ≤ x ∧ x < (x / P * (P * Q / n) / Q + 3) * n := by
  have hnpos : 0 < n := Nat.lt_of_lt_of_le hP hn
  have hQ : 0 < Q := Nat.zero_lt_of_lt hx
  have hmu : P * Q / n ≤ Q := Nat.div_le_of_le_mul (Nat.mul_le_mul_right Q hn)
  have hmulo : P * Q / n * n ≤ P * Q := Nat.div_mul_le_self ..
  have hmuhi : P * Q < n * (P * Q / n + 1) := Nat.lt_mul_div_succ _ hnpos
  have hxlo : x / P * P ≤ x := Nat.div_mul_le_self ..
  have hxhi : x < P * (x / P + 1) := Nat.lt_mul_div_succ _ hP
  generalize x / P = q₁ at *
  generalize P * Q / n = mu at *
  have hq₃lo : q₁ * mu / Q * Q ≤ q₁ * mu := Nat.div_mul_le_self ..
  have hq₃hi : q₁ * mu < Q * (q₁ * mu / Q + 1) := Nat.lt_mul_div_succ _ hQ
  generalize q₁ * mu / Q = q₃ at *
  constructor
  · refine Nat.le_of_mul_le_mul_right ?_ hQ
    calc q₃ * n * Q = q₃ * Q * n := by ring
      _ ≤ q₁ * mu * n := Nat.mul_le_mul_right n hq₃lo
      _ = q₁ * (mu * n) := by ring
      _ ≤ q₁ * (P * Q) := Nat.mul_le_mul_left q₁ hmulo
      _ = q₁ * P * Q := by ring
      _ ≤ x * Q := Nat.mul_le_mul_right Q hxlo
  · refine Nat.lt_of_mul_lt_mul_right (a := P * Q) ?_
    have herror : (q₁ + 1) * (mu + 1) ≤ (q₃ + 3) * Q := by
      have hl : (q₁ + 1) * (mu + 1) = q₁ * mu + (q₁ + 1 + mu) := by ring
      have hr : (q₃ + 3) * Q = Q * (q₃ + 1) + 2 * Q := by ring
      omega
    calc x * (P * Q) < P * (q₁ + 1) * (n * (mu + 1)) := Nat.mul_lt_mul'' hxhi hmuhi
      _ = P * n * ((q₁ + 1) * (mu + 1)) := by ring
      _ ≤ P * n * ((q₃ + 3) * Q) := Nat.mul_le_mul_left _ herror
      _ = (q₃ + 3) * n * (P * Q) := by ring

/-- R159: with the modulus's own Barrett factor, p falls short of x by less than three moduli and never exceeds it. -/
theorem barrettProduct_bounds {x n : FixedInt} (hn : n ≠ 0) (hn1023 : n.toNat < 2 ^ 1023)
    (hx : x.toNat < n.toNat * n.toNat) :
    (barrettProduct x n (barrettMu n).q).toNat ≤ x.toNat ∧
      x.toNat < (barrettProduct x n (barrettMu n).q).toNat + 3 * n.toNat := by
  obtain ⟨hlo, hk1⟩ := two_pow_le_of_ne_zero (toNat_ne_zero.mp hn)
  have hhi := lt_two_pow_bitLength n
  have hk : bitLength n ≤ 1023 := bitLength_le_iff.mpr hn1023
  rw [toNat_barrettProduct, toNat_barrettMu_of_lt hn hk]
  generalize bitLength n = k at *
  have hpow : 2 ^ (2 * k) = 2 ^ (k - 1) * 2 ^ (k + 1) := by rw [← Nat.pow_add]; congr 1; omega
  have hq₁ : x.toNat / 2 ^ (k - 1) < 2 ^ (k + 1) := by
    rw [Nat.div_lt_iff_lt_mul (Nat.two_pow_pos _), Nat.mul_comm, ← hpow, Nat.two_mul, Nat.pow_add]
    exact Nat.lt_trans hx (Nat.mul_lt_mul'' hhi hhi)
  have hmu : 2 ^ (2 * k) / n.toNat ≤ 2 ^ (k + 1) :=
    Nat.div_le_of_le_mul (hpow ▸ Nat.mul_le_mul_right _ hlo)
  have hnowrap : x.toNat / 2 ^ (k - 1) * (2 ^ (2 * k) / n.toNat) < 2 ^ 2048 :=
    calc x.toNat / 2 ^ (k - 1) * (2 ^ (2 * k) / n.toNat)
      _ < 2 ^ (k + 1) * 2 ^ (k + 1) := Nat.mul_lt_mul_of_lt_of_le hq₁ hmu (Nat.two_pow_pos _)
      _ = 2 ^ (k + 1 + (k + 1)) := (Nat.pow_add ..).symm
      _ ≤ 2 ^ 2048 := Nat.pow_le_pow_right (by decide) (by omega)
  rw [Nat.mod_eq_of_lt hnowrap, hpow, ← Nat.add_mul]
  exact barrett_estimate (Nat.two_pow_pos _) hlo hq₁

/-- Settles O54: the difference lies between 0 and 3n, so the first loop takes it to its remainder within two
subtractions. -/
theorem barrettNeedsAtMostTwoSubtractions : Obligations.BarrettNeedsAtMostTwoSubtractions := by
  intro x n hn hn1023 hx
  obtain ⟨hle, hlt⟩ := barrettProduct_bounds hn hn1023 hx
  exact ⟨_, rfl, sub_barrettProduct_emod x n _ ▸ correctDown_of_nonneg 3 (by omega) (by omega)⟩

end Sys2Proof.Machine
end

section
/-! Layer 5, modular exponentiation (spec R158, R160): PowMod's answer as a whole, and the moduli for which no product
wraps. -/

namespace Sys2Proof.Machine

/-- R158: for a modulus that is not Zero, PowMod is square-and-multiply on numbers, each product wrapped and then
reduced, whatever μ is. -/
theorem fixPowMod_of_ne_zero (a b mu : FixedInt) {n : FixedInt} (hn : n ≠ 0) : fixPowMod a b n mu =
    ⟨BitVec.ofNat 2048 ((List.range (bitLength b)).foldl (natPowStep (· % 2 ^ 2048 % n.toNat) b.toNat)
      (1 % n.toNat, a.toNat % n.toNat)).1, false⟩ := by
  have hone : (divMod 1 n).r.toNat = 1 % n.toNat := (divMod_spec 1 hn).2.1.trans (by rw [toNat_fixOne])
  have hfold := powModStep_foldl_toNat b mu hn (List.range (bitLength b)) ((divMod 1 n).r, (divMod a n).r)
  rw [hone, (divMod_spec a hn).2.1] at hfold
  rw [fixPowMod, if_neg hn, ← hfold, BitVec.ofNat_toNat, BitVec.setWidth_eq]

theorem fixPowMod_zero (a b mu : FixedInt) : fixPowMod a b 0 mu = ⟨0, true⟩ := if_pos rfl

/-- R158: POWMOD completes with what PowMod answers. -/
theorem exec_powmod (s : State) (rd rs1 rs2 rs3 r4 : RegIdx) {v : FixedInt} {byZero : Bool}
    (hr : fixPowMod s.x[rs1] s.x[rs2] s.x[rs3] s.x[r4] = ⟨v, byZero⟩) : exec (.powmod rd rs1 rs2 rs3 r4) s =
      .next (s.completedWith (s.x.set rd v) s.result { s.flags with done := true, dz := s.flags.dz || byZero }) := by
  have hreg : fixPowMod (s.reg rs1) (s.reg rs2) (s.reg rs3) (s.reg r4) = ⟨v, byZero⟩ := hr
  simp only [exec, execPowmod, hreg, State.complete_setReg_raiseIf_divByZero]

/-- Settles O56: POWMOD completes with PowMod's answer, square-and-multiply with each product wrapped and reduced, or
zero and DivByZero for Zero. -/
theorem powmodForEveryModulus : Obligations.PowmodForEveryModulus := by
  rintro s rd rs1 rs2 rs3 r4 _ _ _ rfl rfl rfl
  refine ⟨by simp [toNat_encode, encodeFields], fun hne => ?_, fun hzero => ?_⟩
  · rw [exec_powmod s rd rs1 rs2 rs3 r4 (fixPowMod_of_ne_zero _ _ _ (toNat_ne_zero.mpr hne)), Bool.or_false]
    rfl
  · have hn : s.x[rs3] = 0 := BitVec.eq_of_toNat_eq (hzero.trans toNat_fixZero.symm)
    have hr : fixPowMod s.x[rs1] s.x[rs2] s.x[rs3] s.x[r4] = ⟨0, true⟩ := by rw [hn, fixPowMod_zero]
    rw [exec_powmod s rd rs1 rs2 rs3 r4 hr, Bool.or_true]

/-! ### Moduli whose square fits -/

/-- R160: residues by n whose square fits the capacity have products that do not wrap. -/
theorem natPowStep_wrap {n capacity : Nat} (hcap : n * n ≤ capacity) (b : Nat) {t : Nat × Nat} (h₁ : t.1 < n)
    (h₂ : t.2 < n) (i : Nat) : natPowStep (· % capacity % n) b t i = natPowStep (· % n) b t i := by
  have hmul : t.1 * t.2 < capacity := Nat.lt_of_lt_of_le (Nat.mul_lt_mul'' h₁ h₂) hcap
  have hsq : t.2 * t.2 < capacity := Nat.lt_of_lt_of_le (Nat.mul_lt_mul'' h₂ h₂) hcap
  simp only [natPowStep, Nat.mod_eq_of_lt hmul, Nat.mod_eq_of_lt hsq]

/-- R160: so square-and-multiply from residues is the same with and without the wrap. -/
theorem natPowStep_wrap_foldl {n capacity : Nat} (hn : 0 < n) (hcap : n * n ≤ capacity) (a b k : Nat) :
    (List.range k).foldl (natPowStep (· % capacity % n) b) (1 % n, a % n) =
      (List.range k).foldl (natPowStep (· % n) b) (1 % n, a % n) := by
  induction k with
  | zero => rfl
  | succ k ih =>
    rw [List.range_succ, List.foldl_concat, List.foldl_concat, ih, natPowStep_foldl]
    exact natPowStep_wrap hcap b (Nat.mod_lt _ hn) (Nat.mod_lt _ hn) k

/-- R160: the square of a number of at most half the capacity's bits fits it. -/
theorem mul_self_le_two_pow {m k capacityBits : Nat} (hk : 2 * k ≤ capacityBits) (hm : m < 2 ^ k) :
    m * m ≤ 2 ^ capacityBits :=
  calc m * m
    _ ≤ 2 ^ k * 2 ^ k := Nat.mul_le_mul hm.le hm.le
    _ = 2 ^ (2 * k) := by rw [Nat.two_mul, Nat.pow_add]
    _ ≤ 2 ^ capacityBits := Nat.pow_le_pow_right Nat.two_pos hk

/-- Settles O55: below 2^1024 no product wraps, so square-and-multiply gives the power modulo n. -/
theorem powmodIsExactWithinCapacity : Obligations.PowmodIsExactWithinCapacity := by
  intro s rd rs1 rs2 rs3 r4 hne hlt
  have hcap := mul_self_le_two_pow (k := 1024) (capacityBits := 2048) (Nat.le_refl _) hlt
  rw [exec_powmod s rd rs1 rs2 rs3 r4 (fixPowMod_of_ne_zero _ _ _ hne),
    natPowStep_wrap_foldl (Nat.pos_of_ne_zero (toNat_ne_zero.mp hne)) hcap, natPowStep_foldl,
    Nat.mod_eq_of_lt (lt_two_pow_bitLength _), Bool.or_false]

end Sys2Proof.Machine
end

section
/-! The error conditions (spec R180 to R189): which words CMD drops or reports, which commands raise DZ, MALF and IDX,
and the interrupt level. -/

namespace Sys2Proof

/-- R74: the legality check by the two things it asks: the row of the word's opcode matches, and an LDWL length fits. -/
theorem legal_iff {v : Word} : legal v = true ↔
    (∃ r ∈ opcodeRows, r.op = (v.extractLsb' 27 5).toNat ∧ v &&& r.mask = r.value) ∧
      ((v.extractLsb' 27 5).toNat = 0x03 → (v.extractLsb' 0 12).toNat ≤ 256) := by
  simp only [legal, OpcodeRow.matches, Bool.and_eq_true, List.any_eq_true, beq_iff_eq, Bool.or_eq_true, bne_iff_ne,
    decide_eq_true_iff, ne_eq, ← imp_iff_not_or]

/-- R72: the opcodes of the map. -/
theorem op_of_mem_opcodeRows : ∀ r ∈ opcodeRows, 0x01 ≤ r.op ∧ r.op < 0x15 := by decide

/-- R72: the map has one row for an opcode. -/
theorem opcodeRows_op_inj : ∀ p ∈ opcodeRows, ∀ q ∈ opcodeRows, p.op = q.op → p = q := by decide

/-- R185: each of the three causes makes a word illegal. -/
theorem legal_eq_false_of_cause {v : Word}
    (hcause : (v.extractLsb' 27 5).toNat = 0 ∨ 0x15 ≤ (v.extractLsb' 27 5).toNat ∨
      (∃ r ∈ opcodeRows, r.op = (v.extractLsb' 27 5).toNat ∧ v &&& r.mask ≠ r.value) ∨
      ((v.extractLsb' 27 5).toNat = 0x03 ∧ 256 < (v.extractLsb' 0 12).toNat)) : legal v = false := by
  rw [← Bool.not_eq_true, legal_iff]
  rintro ⟨⟨q, hq, hqop, hqv⟩, hlen⟩
  obtain ⟨hlo, hhi⟩ := op_of_mem_opcodeRows q hq
  rcases hcause with hzero | hhigh | ⟨r, hr, hrop, hrv⟩ | ⟨hldwl, hlong⟩
  · omega
  · omega
  · obtain rfl := opcodeRows_op_inj r hr q hq (hrop.trans hqop.symm)
    exact hrv hqv
  · exact Nat.not_lt_of_le (hlen hldwl) hlong

end Sys2Proof

namespace Sys2Proof.Machine

/-! ### CMD: overrun and illegal words -/

/-- R186: while busy, a CMD write sets OVR and nothing else. -/
theorem State.hostWrite_cmd_of_busy {s : State} (v : Word) (hb : s.busy = true) :
    s.hostWrite .word (hostAddress 0x008) v = { s with flags := { s.flags with ovr := true } } := by
  rw [s.hostWrite_control v (by decide) (by decide)]
  change s.issue v = s.raise .overrun
  rw [issue, hb, cond_true]

/-- R185: while idle, a CMD write of an illegal word records it, sets ILL and DONE, and does nothing else. -/
theorem State.hostWrite_cmd_of_illegal {s : State} {v : Word} (hb : s.busy = false) (hl : legal v = false) :
    s.hostWrite .word (hostAddress 0x008) v =
      { s with cmdLast := v, flags := { s.flags with ill := true, done := true } } := by
  rw [s.hostWrite_control v (by decide) (by decide)]
  change s.issue v = s.rejectIllegal v
  rw [issue, hb, hl, cond_false, cond_false]

/-- Settles O10: each of the three causes makes the word illegal, and CMD reports an illegal word. -/
theorem illegalWordIsReportedNotExecuted : Obligations.IllegalWordIsReportedNotExecuted :=
  fun _ _ hb hcause => State.hostWrite_cmd_of_illegal hb (legal_eq_false_of_cause hcause)

/-- Settles O9: the write sets OVR only, so the block is still busy with the same word, which the turn runs. -/
theorem overrunDropsTheWordOnly : Obligations.OverrunDropsTheWordOnly := by
  intro s v i hb hd
  have hw := State.hostWrite_cmd_of_busy v hb
  refine ⟨hw, ?_⟩
  rw [hw]
  exact engineTurn_of_busy hb hd

/-! ### DZ, MALF and IDX: the flags a completion leaves -/

theorem byZero_divMod (a b : FixedInt) : (divMod a b).byZero = decide (b = 0) := by
  by_cases hb : b = 0
  · rw [hb, divMod_zero, decide_eq_true rfl]
  · rw [divMod_of_ne_zero a hb, decide_eq_false hb]

theorem byZero_barrettMu (n : FixedInt) : (barrettMu n).byZero = decide (n = 0) := byZero_divMod _ n

theorem byZero_fixReduce (x n mu : FixedInt) : (fixReduce x n mu).byZero = decide (n = 0) := by
  by_cases hn : n = 0
  · rw [hn, fixReduce_zero, decide_eq_true rfl]
  · rw [(fixReduce_spec x mu hn).2, decide_eq_false hn]

theorem byZero_fixPowMod (a b n mu : FixedInt) : (fixPowMod a b n mu).byZero = decide (n = 0) := by
  by_cases hn : n = 0
  · rw [hn, fixPowMod_zero, decide_eq_true rfl]
  · rw [fixPowMod_of_ne_zero a b mu hn, decide_eq_false hn]

/-- R182: the command divides or reduces by Zero. -/
def State.dividesByZero (s : State) : Instr → Bool
  | .divmod _ _ _ rs2 => decide (s.x[rs2] = 0)
  | .bmu _ rs1 => decide (s.x[rs1] = 0)
  | .bred _ _ rs2 _ => decide (s.x[rs2] = 0)
  | .powmod _ _ _ rs3 _ => decide (s.x[rs3] = 0)
  | _ => false

/-- R183: the command is an LDWL of odd length. -/
def isMalformed : Instr → Bool
  | .ldwl _ len => decide (len.toNat % 2 = 1)
  | _ => false

/-- R184: the command is an LDWL of even length, one of whose pairs is noted for its index. -/
def State.namesBadIndex (s : State) : Instr → Bool
  | .ldwl _ len => decide (len.toNat % 2 = 0) && (applyPairs s.pairAt (len.toNat / 2)).2
  | _ => false

/-- R29, R182 to R184, R188: the flags after the command: DONE, the condition with its cause, and those that were set. -/
def State.flagsAfter (s : State) (i : Instr) : StatusFlags :=
  { s.flags with
    done := true
    dz := s.flags.dz || s.dividesByZero i
    malf := s.flags.malf || isMalformed i
    idx := s.flags.idx || s.namesBadIndex i }

/-- R182: a command other than LDWL adds DZ only, where it divides by Zero. -/
theorem State.flags_eq_flagsAfter {s t : State} {i : Instr}
    (ht : t.flags = { s.flags with done := true, dz := s.flags.dz || s.dividesByZero i })
    (hmalf : isMalformed i = false) (hidx : s.namesBadIndex i = false) : t.flags = s.flagsAfter i := by
  rw [ht, flagsAfter, hmalf, hidx, Bool.or_false, Bool.or_false]

/-- R188: a command without an error condition adds DONE only. -/
theorem State.flags_eq_flagsAfter_of_no_cause {s t : State} {i : Instr}
    (ht : t.flags = { s.flags with done := true }) (hdz : s.dividesByZero i = false)
    (hmalf : isMalformed i = false) (hidx : s.namesBadIndex i = false) : t.flags = s.flagsAfter i :=
  flags_eq_flagsAfter (by rw [ht, hdz, Bool.or_false]) hmalf hidx

/-- R103, R183, R184: LDWL completes with the flags of its length and its pairs. -/
theorem exec_ldwl_flags (s : State) (rd : RegIdx) {len : Imm12} (hlen : len.toNat ≤ 256) :
    ∃ t : State, exec (.ldwl rd len) s = .next t ∧ t.flags = s.flagsAfter (.ldwl rd len) := by
  rcases Nat.mod_two_eq_zero_or_one len.toNat with heven | hodd
  · refine ⟨_, exec_ldwl_even s rd (n := len.toNat / 2) (by omega) (by omega), ?_⟩
    simp [State.completedWith, State.flagsAfter, State.dividesByZero, isMalformed, State.namesBadIndex, heven]
  · refine ⟨_, exec_ldwl_odd s rd hlen hodd, ?_⟩
    simp [State.completedWith, State.flagsAfter, State.dividesByZero, isMalformed, State.namesBadIndex, hodd]

/-- R182 to R184, R188: a well-formed command completes with the flags its conditions' causes give. -/
theorem exec_flags (s : State) {i : Instr} (hwf : i.wellFormed = true) :
    ∃ t : State, exec i s = .next t ∧ t.flags = s.flagsAfter i := by
  cases i with
  | ldwl rd len => exact exec_ldwl_flags s rd (of_decide_eq_true hwf)
  | divmod rd r4 rs1 rs2 =>
    have hd : divMod s.x[rs1] s.x[rs2] =
        ⟨(divMod s.x[rs1] s.x[rs2]).q, (divMod s.x[rs1] s.x[rs2]).r, decide (s.x[rs2] = 0)⟩ := by
      rw [← byZero_divMod s.x[rs1]]
    exact ⟨_, exec_divmod s rd r4 rs1 rs2 hd, State.flags_eq_flagsAfter rfl rfl rfl⟩
  | bmu rd rs1 =>
    have he := exec_bmu s rd rs1
    rw [byZero_barrettMu] at he
    exact ⟨_, he, State.flags_eq_flagsAfter rfl rfl rfl⟩
  | bred rd rs1 rs2 rs3 =>
    have he := exec_bred s rd rs1 rs2 rs3
    rw [byZero_fixReduce] at he
    exact ⟨_, he, State.flags_eq_flagsAfter rfl rfl rfl⟩
  | powmod rd rs1 rs2 rs3 r4 =>
    have hr : fixPowMod s.x[rs1] s.x[rs2] s.x[rs3] s.x[r4] =
        ⟨(fixPowMod s.x[rs1] s.x[rs2] s.x[rs3] s.x[r4]).value, decide (s.x[rs3] = 0)⟩ := by
      rw [← byZero_fixPowMod s.x[rs1] s.x[rs2] s.x[rs3] s.x[r4]]
    exact ⟨_, exec_powmod s rd rs1 rs2 rs3 r4 hr, State.flags_eq_flagsAfter rfl rfl rfl⟩
  | lcm rd rs1 rs2 => exact ⟨_, execLcm_eq s rd rs1 rs2, State.flags_eq_flagsAfter_of_no_cause rfl rfl rfl rfl⟩
  | _ => exact ⟨_, rfl, State.flags_eq_flagsAfter_of_no_cause rfl rfl rfl rfl⟩

/-- R182: the four commands that divide or reduce, and by which register. -/
theorem State.dividesByZero_iff (s : State) (i : Instr) : s.dividesByZero i = true ↔
    (∃ rd r4 rs1 rs2, i = .divmod rd r4 rs1 rs2 ∧ s.x[rs2] = 0) ∨ (∃ rd rs1, i = .bmu rd rs1 ∧ s.x[rs1] = 0) ∨
      (∃ rd rs1 rs2 rs3, i = .bred rd rs1 rs2 rs3 ∧ s.x[rs2] = 0) ∨
      (∃ rd rs1 rs2 rs3 r4, i = .powmod rd rs1 rs2 rs3 r4 ∧ s.x[rs3] = 0) := by
  constructor
  · intro h
    cases i with
    | divmod rd r4 rs1 rs2 => exact .inl ⟨rd, r4, rs1, rs2, rfl, of_decide_eq_true h⟩
    | bmu rd rs1 => exact .inr (.inl ⟨rd, rs1, rfl, of_decide_eq_true h⟩)
    | bred rd rs1 rs2 rs3 => exact .inr (.inr (.inl ⟨rd, rs1, rs2, rs3, rfl, of_decide_eq_true h⟩))
    | powmod rd rs1 rs2 rs3 r4 => exact .inr (.inr (.inr ⟨rd, rs1, rs2, rs3, r4, rfl, of_decide_eq_true h⟩))
    | _ => cases h
  · rintro (⟨_, _, _, _, rfl, h⟩ | ⟨_, _, rfl, h⟩ | ⟨_, _, _, _, rfl, h⟩ | ⟨_, _, _, _, _, rfl, h⟩)
    all_goals exact decide_eq_true h

theorem isMalformed_iff (i : Instr) : isMalformed i = true ↔ ∃ rd len, i = .ldwl rd len ∧ len.toNat % 2 = 1 := by
  cases i <;> simp [isMalformed]

/-- R184: a pair is noted exactly if its index is 64 or more. -/
theorem State.namesBadIndex_iff (s : State) (i : Instr) : s.namesBadIndex i = true ↔
    ∃ rd len m, i = .ldwl rd len ∧ len.toNat % 2 = 0 ∧ 2 * m + 1 < len.toNat ∧
      64 ≤ (s.pb[2 * m]?.getD 0).toNat := by
  cases i with
  | ldwl rd len =>
    have hpair (m : Nat) (heven : len.toNat % 2 = 0) : m < len.toNat / 2 ↔ 2 * m + 1 < len.toNat := by omega
    simp only [namesBadIndex, Bool.and_eq_true, decide_eq_true_iff, snd_applyPairs]
    constructor
    · rintro ⟨heven, m, hm, hbad⟩
      exact ⟨rd, len, m, rfl, heven, (hpair m heven).mp hm, hbad⟩
    · rintro ⟨_, _, m, hi, heven, hm, hbad⟩
      cases hi
      exact ⟨heven, m, (hpair m heven).mpr hm, hbad⟩
  | _ => simp [namesBadIndex]

/-- Settles O33: the flags after the command are those before it and, of DZ, MALF and IDX, the one whose cause the
command is; each cause is one of the forms listed. -/
theorem eachErrorHasItsOneCause : Obligations.EachErrorHasItsOneCause := by
  intro i s t hwf he
  obtain ⟨u, hu, hflags⟩ := exec_flags s hwf
  cases he.symm.trans hu
  rw [hflags, ← s.dividesByZero_iff i, ← isMalformed_iff i, ← s.namesBadIndex_iff i]
  exact ⟨Bool.or_eq_true_iff, Bool.or_eq_true_iff, Bool.or_eq_true_iff⟩

/-! ### The interrupt level -/

/-- R29: STATUS bits 2 to 7 are the flags but DONE. -/
theorem State.getLsbD_statusWord_and_errMask (s : State) (b : Nat) :
    (s.statusWord &&& 0xFC).getLsbD b = (decide (2 ≤ b) && s.flags.bit b) := by
  rw [BitVec.getLsbD_and, getLsbD_statusWord]
  match b with
  | 0 | 1 | 2 | 3 | 4 | 5 | 6 | 7 => simp
  | k + 8 => simp [StatusFlags.bit]

/-- R29: ERR is low exactly if no flag from bit 2 on is set. -/
theorem StatusFlags.err_eq_false_iff (f : StatusFlags) : f.err = false ↔ ∀ b : Nat, 2 ≤ b → f.bit b = false := by
  simp only [err, Bool.or_eq_false_iff, and_assoc]
  constructor
  · rintro ⟨hdz, hmalf, hidx, hill, hovr, hacc⟩ b hb
    match b, hb with
    | 2, _ => exact hdz
    | 3, _ => exact hmalf
    | 4, _ => exact hidx
    | 5, _ => exact hill
    | 6, _ => exact hovr
    | 7, _ => exact hacc
    | k + 8, _ => rfl
  · intro h
    exact ⟨h 2 (by decide), h 3 (by decide), h 4 (by decide), h 5 (by decide), h 6 (by decide), h 7 (by decide)⟩

/-- R29, R189: ERR is high exactly if one of STATUS bits 2 to 7 is. -/
theorem State.err_iff_statusWord (s : State) : s.flags.err = true ↔ s.statusWord &&& 0xFC ≠ 0 := by
  rw [← Bool.not_eq_false, ne_eq, not_iff_not, StatusFlags.err_eq_false_iff]
  constructor
  · intro h
    apply BitVec.eq_of_getLsbD_eq
    intro b _
    rw [getLsbD_statusWord_and_errMask]
    by_cases hb : 2 ≤ b <;> simp [hb, h]
  · intro h b hb
    have hbit := s.getLsbD_statusWord_and_errMask b
    rw [h, decide_eq_true hb, Bool.true_and] at hbit
    exact hbit.symm.trans BitVec.getLsbD_zero

/-- Settles O26: the bits of the two words are the fields irq is computed from, and the masked STATUS word is ERR. -/
theorem interruptLevelFromStatusAndEnable : Obligations.InterruptLevelFromStatusAndEnable := by
  intro s
  rw [s.getLsbD_ieWord 0, s.getLsbD_ieWord 1, s.getLsbD_statusWord 1, ← s.err_iff_statusWord]
  simp [State.irq, StatusFlags.bit]

end Sys2Proof.Machine
end
